-- ==== Sys2Proof/Word.lean ====
section
/-! DEFINITION. The words of the command port and the register index (`00_scope.md` R7, R10; `10_state.md` R21, R31). -/

namespace Sys2Proof

/-- A command word `cmd[31:0]` (`30_encoding.md` R70; CMD_W = 32). -/
abbrev CmdWord := BitVec 32

/-- A DATA_IN or DATA_OUT word (`10_state.md` R31, R32; DATA_W = 256). -/
abbrev DataWord := BitVec 256

/-- A matrix register index, 0..15 (`10_state.md` R21; NREG = 16). -/
abbrev RegIdx := Fin 16

/-- A command: one command word and the DATA_IN word sent with it (`00_scope.md` R18, `30_encoding.md` R70). -/
structure Command where
  word : CmdWord
  dataIn : DataWord
  deriving DecidableEq, Repr

end Sys2Proof
end

