-- ==== Sys2Proof/Config.lean ====
section
/-! DEFINITION. What an implementation fixes: M_MAX and LATENCY, the two OPEN parameters of the spec
(`00_scope.md` R6, `70_reset_and_hazards.md` R301). -/

namespace Sys2Proof

/-- The legal values of M_MAX, the largest m the core can construct: `2 <= M_MAX <= 8` (`00_scope.md` R6). -/
inductive MMax
  | m2 | m3 | m4 | m5 | m6 | m7 | m8
  deriving DecidableEq, Repr

/-- M_MAX as an integer. -/
def MMax.toNat : MMax → Nat
  | .m2 => 2
  | .m3 => 3
  | .m4 => 4
  | .m5 => 5
  | .m6 => 6
  | .m7 => 7
  | .m8 => 8

/-- The configuration of a core: a parameter of its step, not state (`10_state.md` R20, R34). No command writes it and
only STATUS reports it. -/
structure Config where
  mMax : MMax
  deriving DecidableEq, Repr

/-- The configuration of `State.reset`. DESIGN CHOICE (log entry 1; unsafe for a claim about `State.reset` alone): the
spec leaves M_MAX open. The model's rules are stated for every configuration. -/
def Config.chosen : Config := ⟨.m8⟩

/-- `LATENCY(command, m)`: the cycles the command `c` takes under the code parameter `m`. The spec leaves the value OPEN,
positive and finite (`70_reset_and_hazards.md` R301), and no rule reads it. DESIGN CHOICE (log entry 9; safe): `command` is
read as the command of `00_scope.md` R18, its word with its DATA_IN, and the number is a function of it and `m` alone. -/
opaque Config.latency (c : Command) (m : Nat) : ℕ+

end Sys2Proof
end

