-- ==== Sys2Proof/Syntax.lean ====
section
/-! DEFINITION. The commands of the QEC-HAM command set, revision 1, one constructor per row of the opcode table
(`30_encoding.md` R73, R74). -/

namespace Sys2Proof

/-- A decoded command. A field the format requires to be zero does not appear. DATA_IN is an operand of the two commands
that read it, MWROW and MWCOL (`10_state.md` R31; log entry 3), and of no other. -/
inductive Instr
  /-- `nop` (`45_register_access.md` R200). -/
  | nop
  /-- `construct M` (`41_code_construction.md` R140). -/
  | construct (m : BitVec 16)
  /-- `encode RD, RS1` (`42_encoder.md` R160). -/
  | encode (rd rs1 : RegIdx)
  /-- `inject RD, RS1, POS` (`43_channel.md` R170). -/
  | inject (rd rs1 : RegIdx) (pos : BitVec 16)
  /-- `decode RD, RC, RS1`; rc stands in the rs2 field (`44_decoder.md` R180). -/
  | decode (rd rc rs1 : RegIdx)
  /-- `madd RD, RS1, RS2` (`40_gf2_alu.md` R110). -/
  | madd (rd rs1 rs2 : RegIdx)
  /-- `mmul RD, RS1, RS2` (`40_gf2_alu.md` R115). -/
  | mmul (rd rs1 rs2 : RegIdx)
  /-- `mdim RD, ROWS, COLS` (`45_register_access.md` R203). -/
  | mdim (rd : RegIdx) (rows cols : BitVec 8)
  /-- `mwrow RD, ROW, DATA` (`45_register_access.md` R206). -/
  | mwrow (rd : RegIdx) (row : BitVec 8) (data : DataWord)
  /-- `mrrow RS1, ROW` (`45_register_access.md` R209). -/
  | mrrow (rs1 : RegIdx) (row : BitVec 8)
  /-- `mwcol RD, COL, DATA` (`45_register_access.md` R212). -/
  | mwcol (rd : RegIdx) (col : BitVec 8) (data : DataWord)
  /-- `mrcol RS1, COL` (`45_register_access.md` R215). -/
  | mrcol (rs1 : RegIdx) (col : BitVec 8)
  /-- `mshape RS1` (`45_register_access.md` R218). -/
  | mshape (rs1 : RegIdx)
  /-- `status` (`45_register_access.md` R221). -/
  | status
  deriving DecidableEq, Repr

end Sys2Proof
end

