-- ==== Sys2Proof/WellFormed.lean ====
section
/-! DEFINITION. Which `Instr` terms are legal commands. The types bound every field already; the one constraint between
fields is DECODE's (`30_encoding.md` R77). -/

namespace Sys2Proof

/-- A legal command: DECODE names two different destinations (`30_encoding.md` R77); no other command has a constraint
beyond its fields' widths. -/
def Instr.wellFormed : Instr → Bool
  | .nop => true
  | .construct _ => true
  | .encode _ _ => true
  | .inject _ _ _ => true
  | .decode rd rc _ => rd != rc
  | .madd _ _ _ => true
  | .mmul _ _ _ => true
  | .mdim _ _ _ => true
  | .mwrow _ _ _ => true
  | .mrrow _ _ => true
  | .mwcol _ _ _ => true
  | .mrcol _ _ => true
  | .mshape _ => true
  | .status => true

end Sys2Proof
end

