-- ==== Sys2Proof/Decode.lean ====
section
/-! DEFINITION. The command format, the decoder and the encoder (`30_encoding.md`, R70 to R83). -/

namespace Sys2Proof

/-! ### Fields (R70, R72) -/

/-- `cmd[3:0]`. -/
def fieldOp (w : CmdWord) : BitVec 4 := w.extractLsb' 0 4

/-- `cmd[7:4]`. -/
def fieldRd (w : CmdWord) : RegIdx := (w.extractLsb' 4 4).toFin

/-- `cmd[11:8]`. -/
def fieldRs1 (w : CmdWord) : RegIdx := (w.extractLsb' 8 4).toFin

/-- `cmd[15:12]`. -/
def fieldRs2 (w : CmdWord) : RegIdx := (w.extractLsb' 12 4).toFin

/-- `cmd[23:16]`. -/
def fieldImmLo (w : CmdWord) : BitVec 8 := w.extractLsb' 16 8

/-- `cmd[31:24]`. -/
def fieldImmHi (w : CmdWord) : BitVec 8 := w.extractLsb' 24 8

/-- `cmd[31:16]`, zero-extended, never scaled. -/
def fieldImm16 (w : CmdWord) : BitVec 16 := w.extractLsb' 16 16

/-! ### The rows of the opcode map (R73, R74) -/

/-- The fourteen assigned opcodes, in the order of R73. -/
inductive Op
  | nop | construct | encode | inject | decode | madd | mmul
  | mdim | mwrow | mrrow | mwcol | mrcol | mshape | status
  deriving DecidableEq, Repr

/-- The match column of R74. -/
def Op.matchWord : Op → CmdWord
  | .nop => 0x00000000#32
  | .construct => 0x00000001#32
  | .encode => 0x00000002#32
  | .inject => 0x00000003#32
  | .decode => 0x00000004#32
  | .madd => 0x00000005#32
  | .mmul => 0x00000006#32
  | .mdim => 0x00000007#32
  | .mwrow => 0x00000008#32
  | .mrrow => 0x00000009#32
  | .mwcol => 0x0000000A#32
  | .mrcol => 0x0000000B#32
  | .mshape => 0x0000000C#32
  | .status => 0x0000000D#32

/-- The mask column of R74. -/
def Op.maskWord : Op → CmdWord
  | .nop => 0xFFFFFFFF#32
  | .construct => 0x0000FFFF#32
  | .encode => 0xFFFFF00F#32
  | .inject => 0x0000F00F#32
  | .decode => 0xFFFF000F#32
  | .madd => 0xFFFF000F#32
  | .mmul => 0xFFFF000F#32
  | .mdim => 0x0000FF0F#32
  | .mwrow => 0xFF00FF0F#32
  | .mrrow => 0xFF00F0FF#32
  | .mwcol => 0xFF00FF0F#32
  | .mrcol => 0xFF00F0FF#32
  | .mshape => 0xFFFFF0FF#32
  | .status => 0xFFFFFFFF#32

/-- The rows of R74, in its order. -/
def Op.rows : List Op :=
  [.nop, .construct, .encode, .inject, .decode, .madd, .mmul,
   .mdim, .mwrow, .mrrow, .mwcol, .mrcol, .mshape, .status]

/-- The word `w` encodes the command of this row: `(w & mask) == match` (R74). -/
def Op.hits (o : Op) (w : CmdWord) : Bool := w &&& o.maskWord == o.matchWord

/-- The row a word matches, if any; no word matches two (R74). -/
def opOf (w : CmdWord) : Option Op := Op.rows.find? (·.hits w)

/-- The command of a row, its operands taken from the fields of R73. -/
def Op.build (o : Op) (c : Command) : Instr :=
  match o with
  | .nop => .nop
  | .construct => .construct (fieldImm16 c.word)
  | .encode => .encode (fieldRd c.word) (fieldRs1 c.word)
  | .inject => .inject (fieldRd c.word) (fieldRs1 c.word) (fieldImm16 c.word)
  | .decode => .decode (fieldRd c.word) (fieldRs2 c.word) (fieldRs1 c.word)
  | .madd => .madd (fieldRd c.word) (fieldRs1 c.word) (fieldRs2 c.word)
  | .mmul => .mmul (fieldRd c.word) (fieldRs1 c.word) (fieldRs2 c.word)
  | .mdim => .mdim (fieldRd c.word) (fieldImmLo c.word) (fieldImmHi c.word)
  | .mwrow => .mwrow (fieldRd c.word) (fieldImmLo c.word) c.dataIn
  | .mrrow => .mrrow (fieldRs1 c.word) (fieldImmLo c.word)
  | .mwcol => .mwcol (fieldRd c.word) (fieldImmLo c.word) c.dataIn
  | .mrcol => .mrcol (fieldRs1 c.word) (fieldImmLo c.word)
  | .mshape => .mshape (fieldRs1 c.word)
  | .status => .status

/-! ### The field table (R73), which the masks of R74 must agree with -/

/-- The opcode of a row (R73). -/
def Op.code : Op → BitVec 4
  | .nop => 0x0
  | .construct => 0x1
  | .encode => 0x2
  | .inject => 0x3
  | .decode => 0x4
  | .madd => 0x5
  | .mmul => 0x6
  | .mdim => 0x7
  | .mwrow => 0x8
  | .mrrow => 0x9
  | .mwcol => 0xA
  | .mrcol => 0xB
  | .mshape => 0xC
  | .status => 0xD

/-- The fields a row requires to be zero (the cells marked 0 in R73). -/
def Op.zeroFields (o : Op) (w : CmdWord) : Prop :=
  match o with
  | .nop => fieldRd w = 0 ∧ fieldRs1 w = 0 ∧ fieldRs2 w = 0 ∧ fieldImmLo w = 0 ∧ fieldImmHi w = 0
  | .construct => fieldRd w = 0 ∧ fieldRs1 w = 0 ∧ fieldRs2 w = 0
  | .encode => fieldRs2 w = 0 ∧ fieldImmLo w = 0 ∧ fieldImmHi w = 0
  | .inject => fieldRs2 w = 0
  | .decode => fieldImmLo w = 0 ∧ fieldImmHi w = 0
  | .madd => fieldImmLo w = 0 ∧ fieldImmHi w = 0
  | .mmul => fieldImmLo w = 0 ∧ fieldImmHi w = 0
  | .mdim => fieldRs1 w = 0 ∧ fieldRs2 w = 0
  | .mwrow => fieldRs1 w = 0 ∧ fieldRs2 w = 0 ∧ fieldImmHi w = 0
  | .mrrow => fieldRd w = 0 ∧ fieldRs2 w = 0 ∧ fieldImmHi w = 0
  | .mwcol => fieldRs1 w = 0 ∧ fieldRs2 w = 0 ∧ fieldImmHi w = 0
  | .mrcol => fieldRd w = 0 ∧ fieldRs2 w = 0 ∧ fieldImmHi w = 0
  | .mshape => fieldRd w = 0 ∧ fieldRs2 w = 0 ∧ fieldImmLo w = 0 ∧ fieldImmHi w = 0
  | .status => fieldRd w = 0 ∧ fieldRs1 w = 0 ∧ fieldRs2 w = 0 ∧ fieldImmLo w = 0 ∧ fieldImmHi w = 0

/-- The row of an instruction. -/
def Instr.op : Instr → Op
  | .nop => .nop
  | .construct _ => .construct
  | .encode _ _ => .encode
  | .inject _ _ _ => .inject
  | .decode _ _ _ => .decode
  | .madd _ _ _ => .madd
  | .mmul _ _ _ => .mmul
  | .mdim _ _ _ => .mdim
  | .mwrow _ _ _ => .mwrow
  | .mrrow _ _ => .mrrow
  | .mwcol _ _ _ => .mwcol
  | .mrcol _ _ => .mrcol
  | .mshape _ => .mshape
  | .status => .status

/-! ### Decoding (R75 to R80) -/

/-- Why a word is illegal. All three end the command with result IllegalCommand (R80). -/
inductive Illegal
  /-- op is 0xE or 0xF (R76). -/
  | reservedOpcode
  /-- A must-be-zero field has a nonzero bit (R75). -/
  | mustBeZero
  /-- DECODE with rd = rs2 (R77). -/
  | sameDestination
  deriving DecidableEq, Repr

/-- What decoding answers: a command, or the reason the word is illegal. -/
inductive Decoded
  | instr (i : Instr)
  | illegal (why : Illegal)
  deriving DecidableEq, Repr

/-- The decode function, total on all words (R79). -/
def decode (c : Command) : Decoded :=
  match opOf c.word with
  | none => .illegal (if 14 ≤ (fieldOp c.word).toNat then .reservedOpcode else .mustBeZero)
  | some o =>
    if o = .decode ∧ fieldRd c.word = fieldRs2 c.word then .illegal .sameDestination
    else .instr (o.build c)

/-- A command given by its bits: bits 31..0 are the command word and bits 287..32 the DATA_IN word; bits at or above
`nbits` are 0 (log entry 14). -/
def commandOfBits (nbits w : Nat) : Command :=
  { word := BitVec.ofNat 32 (w % 2 ^ nbits)
    dataIn := BitVec.ofNat 256 ((w % 2 ^ nbits) >>> 32) }

/-- The instruction the decoder reads from a table word. -/
def decodeTableWord (nbits w : Nat) : Option Instr :=
  match decode (commandOfBits nbits w) with
  | .instr i => some i
  | .illegal _ => none

/-! ### Encoding (R81) -/

/-- `cmd = op | (rd << 4) | (rs1 << 8) | (rs2 << 12) | (imm16 << 16)` (R81). -/
def encodeWord (op : BitVec 4) (rd rs1 rs2 : RegIdx) (imm16 : BitVec 16) : CmdWord :=
  op.setWidth 32 ||| (BitVec.ofNat 32 rd.val <<< 4) ||| (BitVec.ofNat 32 rs1.val <<< 8)
    ||| (BitVec.ofNat 32 rs2.val <<< 12) ||| (imm16.setWidth 32 <<< 16)

/-- `imm16 = imm_lo | (imm_hi << 8)` (R81). -/
def imm16Of (lo hi : BitVec 8) : BitVec 16 := lo.setWidth 16 ||| (hi.setWidth 16 <<< 8)

/-- The command that encodes an instruction; fields a command does not use are 0 (R81), and a command that does not read
DATA_IN sends 0 there (R84). -/
def encode : Instr → Command
  | .nop => ⟨encodeWord 0x0 0 0 0 0, 0⟩
  | .construct m => ⟨encodeWord 0x1 0 0 0 m, 0⟩
  | .encode rd rs1 => ⟨encodeWord 0x2 rd rs1 0 0, 0⟩
  | .inject rd rs1 pos => ⟨encodeWord 0x3 rd rs1 0 pos, 0⟩
  | .decode rd rc rs1 => ⟨encodeWord 0x4 rd rs1 rc 0, 0⟩
  | .madd rd rs1 rs2 => ⟨encodeWord 0x5 rd rs1 rs2 0, 0⟩
  | .mmul rd rs1 rs2 => ⟨encodeWord 0x6 rd rs1 rs2 0, 0⟩
  | .mdim rd rows cols => ⟨encodeWord 0x7 rd 0 0 (imm16Of rows cols), 0⟩
  | .mwrow rd row data => ⟨encodeWord 0x8 rd 0 0 (imm16Of row 0), data⟩
  | .mrrow rs1 row => ⟨encodeWord 0x9 0 rs1 0 (imm16Of row 0), 0⟩
  | .mwcol rd col data => ⟨encodeWord 0xA rd 0 0 (imm16Of col 0), data⟩
  | .mrcol rs1 col => ⟨encodeWord 0xB 0 rs1 0 (imm16Of col 0), 0⟩
  | .mshape rs1 => ⟨encodeWord 0xC 0 rs1 0 0, 0⟩
  | .status => ⟨encodeWord 0xD 0 0 0 0, 0⟩

end Sys2Proof
end

