-- ==== Sys2Proof/Machine/State.lean ====
section
/-! DEFINITION. The state of the core, its port, and its reset (`10_state.md`; `70_reset_and_hazards.md` R290, R295 to
R297). -/

namespace Sys2Proof.Machine

/-- A matrix value `Mat(r, c, f)` over GF(2) (`00_scope.md` R11). Element (i, j) is bit `i * cols + j` of `bits`, so that
two values are equal exactly when their rows, columns and elements are equal (log entry 13). -/
structure Mat where
  rows : Nat
  cols : Nat
  bits : BitVec (rows * cols)
  deriving DecidableEq, Repr

/-- The content of a matrix register: `Empty`, which is no value, or a matrix (`10_state.md` R22). -/
inductive MatReg
  | empty
  | full (A : Mat)
  deriving DecidableEq, Repr

/-- The result codes other than OK, in the order of `60_exceptions.md` R260. -/
inductive CmdError
  | invalidParameter
  | dimensionMismatch
  | notConstructed
  | unwritten
  | illegalCommand
  | readOnlyRegister
  deriving DecidableEq, Repr

/-- The result of a command (`60_exceptions.md` R260). Code 7 is reserved and has no constructor. -/
inductive Result
  | ok
  | error (e : CmdError)
  deriving DecidableEq, Repr

/-- A response: result and DATA_OUT (`10_state.md` R32). -/
structure Response where
  result : Result
  dataOut : DataWord
  deriving DecidableEq, Repr

/-- What the host can do at the port, one constructor per transaction (`70_reset_and_hazards.md` R290 to R297; log
entry 15). -/
inductive HostAction
  /-- Send a command; it transfers, and the core performs it (R295). -/
  | command (c : Command)
  /-- Send a command and assert reset while the core performs it (R291; log entry 7). -/
  | commandCutByReset (c : Command)
  /-- Take the response the core presents (R295). -/
  | takeResponse
  /-- Assert reset between commands (R290). -/
  | reset
  /-- Power is lost; outside the spec (`60_exceptions.md` R277; log entry 8). -/
  | powerLoss
  deriving DecidableEq, Repr

/-- The state. `mat`, `codeM` and `stickyErr` are the core's, and are all of it (`10_state.md` R20). `cfg` is the
configuration, a parameter of the step (R34) that nothing writes. `inbox`, `rsp` and `taken` are what the port carries
between the host and the core (log entry 2). -/
structure State where
  /-- The configuration; not state, never written (`10_state.md` R20; log entry 1). -/
  cfg : Config
  /-- The matrix register file `MAT[0..15]` (`10_state.md` R21). -/
  mat : Vector MatReg 16
  /-- `CODE_M` (`10_state.md` R27). -/
  codeM : BitVec 8
  /-- `STICKY_ERR` (`10_state.md` R29). -/
  stickyErr : Bool
  /-- What the host does next, in order; the model's own field (log entry 2). -/
  inbox : List HostAction
  /-- The response the core presents and the host has not taken (`70_reset_and_hazards.md` R296). -/
  rsp : Option Response
  /-- The responses the host has taken, oldest first: the host's record, which no command reads (log entry 2). -/
  taken : List Response
  deriving DecidableEq, Repr

/-- There is no fault: every command of every state ends in a next state, errors included (`10_state.md` R34,
`60_exceptions.md` R263), so no constructor raises one. -/
inductive Fault : Type
  deriving DecidableEq, Repr

/-- Why the model gives a step no meaning. -/
inductive Refusal
  /-- An instruction without a meaning. Raised by an arm of `exec` only; no arm raises it. Safe. -/
  | notModelled (mnemonic : String)
  /-- The host sends a command while a response waits to be taken: the command does not transfer and the host has no such
  step (`70_reset_and_hazards.md` R296; `93_implementation_defined.md`, treatment "refuse"; log entry 7). Raised by the
  port, never by a command. Safe. -/
  | portBusy
  /-- Power is lost, which is outside the model (`60_exceptions.md` R277; `93_implementation_defined.md`, treatment
  "refuse"). Raised by the port, never by a command. Safe. -/
  | powerLost
  deriving DecidableEq, Repr

/-- The state after reset of a core with configuration `cfg`: every register Empty, CODE_M and STICKY_ERR 0, no response
pending (`10_state.md` R37, `70_reset_and_hazards.md` R290), and a host that has nothing to do (log entry 2). -/
def State.init (cfg : Config) : State where
  cfg := cfg
  mat := Vector.replicate 16 .empty
  codeM := 0
  stickyErr := false
  inbox := []
  rsp := none
  taken := []

/-- The state after reset, for the configuration of log entry 1. -/
def State.reset : State := State.init Config.chosen

end Sys2Proof.Machine
end

