-- ==== Sys2Proof/Machine/Matrix.lean ====
section
/-! DEFINITION. Matrix values over GF(2): elements, words of rows and columns, and the two ALU operations
(`00_scope.md` R9 to R13; `40_gf2_alu.md` R100 to R105). -/

namespace Sys2Proof.Machine

/-- `A(i, j)`, 0-indexed (`00_scope.md` R11); false outside the matrix. -/
def Mat.get (A : Mat) (i j : Nat) : Bool := decide (j < A.cols) && A.bits.getLsbD (i * A.cols + j)

/-- Bits to an integer, index i having weight 2^i (`20_memory.md` R53). -/
def packBits : List Bool → Nat
  | [] => 0
  | b :: bs => b.toNat + 2 * packBits bs

/-- Rows of width `c` to one integer, row 0 lowest (log entry 13). -/
def packRows (c : Nat) : List (List Bool) → Nat
  | [] => 0
  | row :: rows => packBits row + 2 ^ c * packRows c rows

/-- The r×c matrix with the given rows, row 0 first and column 0 first. -/
def Mat.ofRows (r c : Nat) (rows : List (List Bool)) : Mat :=
  ⟨r, c, BitVec.ofNat (r * c) (packRows c rows)⟩

/-- `Mat(r, c, f)` (`00_scope.md` R11). -/
def Mat.ofFn (r c : Nat) (f : Nat → Nat → Bool) : Mat :=
  Mat.ofRows r c ((List.range r).map fun i => (List.range c).map (f i))

/-- The r×c all-zero matrix. -/
def Mat.zero (r c : Nat) : Mat := Mat.ofFn r c fun _ _ => false

/-- The r×r identity `I_r` (`40_gf2_alu.md` R104). -/
def Mat.identity (r : Nat) : Mat := Mat.ofFn r r fun i j => i == j

/-- `e_L(p)`: the L×1 vector with a 1 at index p - 1 (`00_scope.md` R13). -/
def unitVec (L p : Nat) : Mat := Mat.ofFn L 1 fun i _ => i + 1 == p

/-- `XOR_{l<b} f(l)`, 0 when b = 0 (`00_scope.md` R9). -/
def xorBelow : Nat → (Nat → Bool) → Bool
  | 0, _ => false
  | b + 1, f => xorBelow b f ^^ f b

/-- Matrix addition of two matrices of the same size (`40_gf2_alu.md` R102). -/
def madd (A B : Mat) : Mat := Mat.ofFn A.rows A.cols fun i j => A.get i j ^^ B.get i j

/-- Matrix multiplication, for `A.cols = B.rows` (`40_gf2_alu.md` R103). -/
def mmul (A B : Mat) : Mat :=
  Mat.ofFn A.rows B.cols fun i j => xorBelow A.cols fun l => A.get i l && B.get l j

/-- `to_int(s)` of a column vector (`00_scope.md` R13). -/
def toInt (s : Mat) : Nat := packBits ((List.range s.rows).map fun i => s.get i 0)

/-- `row_word(A, i)` (`00_scope.md` R13). -/
def rowWord (A : Mat) (i : Nat) : DataWord :=
  BitVec.ofNat 256 (packBits ((List.range A.cols).map fun j => A.get i j))

/-- `col_word(A, j)` (`00_scope.md` R13). -/
def colWord (A : Mat) (j : Nat) : DataWord :=
  BitVec.ofNat 256 (packBits ((List.range A.rows).map fun i => A.get i j))

/-- A with row `row` replaced by the low bits of `data` (`45_register_access.md` R206). -/
def Mat.setRow (A : Mat) (row : Nat) (data : DataWord) : Mat :=
  Mat.ofFn A.rows A.cols fun i j => if i = row then data.getLsbD j else A.get i j

/-- A with column `col` replaced by the low bits of `data` (`45_register_access.md` R212). -/
def Mat.setCol (A : Mat) (col : Nat) (data : DataWord) : Mat :=
  Mat.ofFn A.rows A.cols fun i j => if j = col then data.getLsbD i else A.get i j

end Sys2Proof.Machine
end

