-- ==== Sys2Proof/Machine/Code.lean ====
section
/-! DEFINITION. The Hamming code of m parity bits: its positions and the matrices G, H and R
(`41_code_construction.md` R130 to R135). -/

namespace Sys2Proof.Machine

/-- `n = 2^m - 1` (`00_scope.md` R5). -/
def codeLen (m : Nat) : Nat := 2 ^ m - 1

/-- `k = n - m` (`00_scope.md` R5). -/
def wordLen (m : Nat) : Nat := codeLen m - m

/-- The codeword positions 1..n, ascending (`41_code_construction.md` R131). -/
def positions (m : Nat) : List Nat := (List.range (codeLen m)).map (· + 1)

/-- A parity position is a power of two (`41_code_construction.md` R131). -/
def isParityPos (j : Nat) : Bool := 2 ^ Nat.log2 j == j

/-- The data positions d_1 < d_2 < ... < d_k (`41_code_construction.md` R132). -/
def dataPositions (m : Nat) : List Nat := (positions m).filter fun j => !isParityPos j

/-- d_t for 1 <= t <= k (`41_code_construction.md` R132). -/
def dataPos (m t : Nat) : Nat := (dataPositions m).getD (t - 1) 0

/-- The element of G in the row of position p and the column of data position d: at a data position the identity row of
its rank (two data positions have one rank exactly when they are equal), at a parity position whether d has the bit of
weight p (`41_code_construction.md` R134, `90_conflicts.md` C3 and C4). -/
def gBit (p d : Nat) : Bool := if isParityPos p then d &&& p != 0 else p == d

/-- The element of H in row i and the column of position j: bit i of j (`41_code_construction.md` R133,
`90_conflicts.md` C1). -/
def hBit (i j : Nat) : Bool := j.testBit i

/-- The element of R in the row of data position d and the column of position j (`41_code_construction.md` R135). -/
def rBit (d j : Nat) : Bool := j == d

/-- The generator matrix `G(m)`, n×k (`41_code_construction.md` R134). -/
def gMat (m : Nat) : Mat :=
  Mat.ofRows (codeLen m) (wordLen m) ((positions m).map fun p => (dataPositions m).map (gBit p))

/-- The parity-check matrix `H(m)`, m×n (`41_code_construction.md` R133). -/
def hMat (m : Nat) : Mat :=
  Mat.ofRows m (codeLen m) ((List.range m).map fun i => (positions m).map (hBit i))

/-- The extraction matrix `R(m)`, k×n (`41_code_construction.md` R135). -/
def rMat (m : Nat) : Mat :=
  Mat.ofRows (wordLen m) (codeLen m) ((dataPositions m).map fun d => (positions m).map (rBit d))

end Sys2Proof.Machine
end

