-- ==== Sys2Proof/Machine/Ops.lean ====
section
/-! DEFINITION. The named operations over the state: registers, code parameters, how a command ends, and what the port
does (`00_scope.md` R14; `10_state.md`; `60_exceptions.md` R263; `70_reset_and_hazards.md`). -/

namespace Sys2Proof.Machine

/-! ### Registers and parameters -/

/-- `MAT[r]`. No register is hardwired (`10_state.md` R25). -/
def State.reg (s : State) (r : RegIdx) : MatReg := s.mat[r.val]

/-- `MAT[r] <- A`: size and elements together (`10_state.md` R22). -/
def State.setReg (s : State) (r : RegIdx) (A : Mat) : State := { s with mat := s.mat.set r.val (.full A) }

/-- N_MAX, the largest matrix dimension (`00_scope.md` R7). -/
def nMax (cfg : Config) : Nat := 2 ^ cfg.mMax.toNat - 1

/-- K_MAX, the largest k (`00_scope.md` R7). -/
def kMax (cfg : Config) : Nat := nMax cfg - cfg.mMax.toNat

/-- CODE_N, derived from CODE_M (`10_state.md` R28). -/
def State.codeN (s : State) : Nat := if s.codeM = 0 then 0 else codeLen s.codeM.toNat

/-- CODE_K, derived from CODE_M (`10_state.md` R28). -/
def State.codeK (s : State) : Nat := if s.codeM = 0 then 0 else wordLen s.codeM.toNat

/-- Load the code of m parity bits: the three code registers and CODE_M (`41_code_construction.md` R140). -/
def State.loadCode (s : State) (m : Nat) : State :=
  { (((s.setReg 0 (gMat m)).setReg 1 (hMat m)).setReg 2 (rMat m)) with codeM := BitVec.ofNat 8 m }

/-! ### How a command ends -/

/-- `respond(v)`: result OK, DATA_OUT = v (`00_scope.md` R14). -/
def State.respond (s : State) (v : DataWord) : State := { s with rsp := some ⟨.ok, v⟩ }

/-- `raise E`: none of the command's writes, STICKY_ERR set, result E with DATA_OUT = 0, and the core ready for the next
command. This is all that taking an error does: no state is saved, no mode changes, there is no vector and no return
(`60_exceptions.md` R263, R267, R268). -/
def State.raise (s : State) (e : CmdError) : State := { s with stickyErr := true, rsp := some ⟨.error e, 0⟩ }

/-- Perform a command on `s`: its checks and its computation give either the state with its writes and DATA_OUT, which are
committed together, or the first error, which is raised on `s` (`10_state.md` R35). -/
def perform (s : State) (x : Except CmdError (State × DataWord)) : Host.Outcome State Fault Refusal :=
  match x with
  | .ok (t, v) => .next (t.respond v)
  | .error e => .next (s.raise e)

/-! ### The port -/

/-- cmd_ready: the core takes a command when no response waits to be taken (`70_reset_and_hazards.md` R296). -/
def State.cmdReady (s : State) : Bool := s.rsp.isNone

/-- rsp_valid: a response waits to be taken (`70_reset_and_hazards.md` R295). -/
def State.rspValid (s : State) : Bool := s.rsp.isSome

/-- The host takes the response, if one waits; otherwise nothing transfers (`70_reset_and_hazards.md` R295; log
entry 5). -/
def State.takeResponse (s : State) : State := { s with rsp := none, taken := s.taken ++ s.rsp.toList }

/-- Reset: every piece of the core's state at its reset value and no response pending; the configuration and the host are
as they were (`10_state.md` R37, `70_reset_and_hazards.md` R290; log entry 6). -/
def State.applyReset (s : State) : State :=
  { State.init s.cfg with inbox := s.inbox, taken := s.taken }

end Sys2Proof.Machine
end

