-- ==== Sys2Proof/Machine/Flags.lean ====
section
/-! DEFINITION. The words that report control and status state: result codes, the STATUS, CONSTRUCT and MSHAPE words
(`60_exceptions.md` R260; `10_state.md` R30; `45_register_access.md` R218, R221; `41_code_construction.md` R140). The one
flag of the core is STICKY_ERR; `State.raise` sets it and nothing else writes it but reset (`10_state.md` R29, R30). -/

namespace Sys2Proof.Machine

/-- The 3-bit code of an error (`60_exceptions.md` R260). -/
def CmdError.code : CmdError → BitVec 3
  | .invalidParameter => 1
  | .dimensionMismatch => 2
  | .notConstructed => 3
  | .unwritten => 4
  | .illegalCommand => 5
  | .readOnlyRegister => 6

/-- The 3-bit result code (`60_exceptions.md` R260). -/
def Result.code : Result → BitVec 3
  | .ok => 0
  | .error e => e.code

/-- An integer as a DATA_OUT word with all higher bits 0 (`00_scope.md` R10, zext_256). -/
def zext256 (v : Nat) : DataWord := BitVec.ofNat 256 v

/-- The STATUS word (`45_register_access.md` R221). -/
def statusWord (s : State) : DataWord :=
  zext256 s.codeM.toNat ||| (zext256 s.stickyErr.toNat <<< 8) ||| (zext256 s.cfg.mMax.toNat <<< 16)
    ||| (zext256 s.codeN <<< 32) ||| (zext256 s.codeK <<< 40)

/-- The word CONSTRUCT answers: n, k and m (`41_code_construction.md` R140). -/
def constructWord (m : Nat) : DataWord :=
  zext256 (codeLen m) ||| (zext256 (wordLen m) <<< 8) ||| (zext256 m <<< 16)

/-- The word MSHAPE answers: rows and columns (`45_register_access.md` R218). -/
def shapeWord (A : Mat) : DataWord := zext256 A.rows ||| (zext256 A.cols <<< 8)

end Sys2Proof.Machine
end

