-- ==== Sys2Proof/Machine/Operands.lean ====
section
/-! DEFINITION. The checks every command is made of, and reading operands. Each command runs its checks in the order of
`60_exceptions.md` R264; IllegalCommand is the decoder's. -/

namespace Sys2Proof.Machine

/-- A destination must be 3..15 (`10_state.md` R23, R24; `60_exceptions.md` R262). -/
def checkWritable (rd : RegIdx) : Except CmdError Unit :=
  if rd.val ≤ 2 then .error .readOnlyRegister else .ok ()

/-- ENCODE, INJECT and DECODE need a constructed code (`60_exceptions.md` R262). -/
def checkConstructed (s : State) : Except CmdError Unit :=
  if s.codeM = 0 then .error .notConstructed else .ok ()

/-- Read a register as an operand: Empty has no value (`10_state.md` R22; `60_exceptions.md` R262). -/
def operand (s : State) (r : RegIdx) : Except CmdError Mat :=
  match s.reg r with
  | .empty => .error .unwritten
  | .full A => .ok A

/-- A parameter or index must be in range (`60_exceptions.md` R261). -/
def checkRange (inRange : Bool) : Except CmdError Unit :=
  if inRange then .ok () else .error .invalidParameter

/-- An operand's size must fit the operation (`60_exceptions.md` R261). -/
def checkSize (fits : Bool) : Except CmdError Unit :=
  if fits then .ok () else .error .dimensionMismatch

/-- `A ⊕ B`, where there is one (`40_gf2_alu.md` R102). -/
def sum (A B : Mat) : Except CmdError Mat := do
  checkSize (A.rows == B.rows && A.cols == B.cols)
  return madd A B

/-- `A · B`, where there is one (`40_gf2_alu.md` R103). -/
def product (A B : Mat) : Except CmdError Mat := do
  checkSize (A.cols == B.rows)
  return mmul A B

/-- DATA_IN has no bit at or above index `width` (`20_memory.md` R56). -/
def fitsWidth (data : DataWord) (width : Nat) : Bool := data >>> width == 0

end Sys2Proof.Machine
end

