-- ==== Sys2Proof/Machine/Access.lean ====
section
/-! DEFINITION. Register access and status: NOP, MDIM, MWROW, MRROW, MWCOL, MRCOL, MSHAPE, STATUS
(`45_register_access.md`). -/

namespace Sys2Proof.Machine

/-- NOP (R200). -/
def execNop (s : State) : Host.Outcome State Fault Refusal := perform s (.ok (s, 0))

/-- MDIM: `MAT[rd] <- ` the all-zero matrix of the given size (R203, R204). -/
def execMdim (rd : RegIdx) (rows cols : BitVec 8) (s : State) : Host.Outcome State Fault Refusal :=
  perform s do
    checkWritable rd
    checkRange (decide (1 ≤ rows.toNat) && decide (rows.toNat ≤ nMax s.cfg)
      && decide (1 ≤ cols.toNat) && decide (cols.toNat ≤ nMax s.cfg))
    return (s.setReg rd (Mat.zero rows.toNat cols.toNat), 0)

/-- MWROW: replace one row of MAT[rd] by DATA_IN (R206). -/
def execMwrow (rd : RegIdx) (row : BitVec 8) (data : DataWord) (s : State) : Host.Outcome State Fault Refusal :=
  perform s do
    checkWritable rd
    let A ← operand s rd
    checkRange (decide (row.toNat < A.rows))
    checkSize (fitsWidth data A.cols)
    return (s.setReg rd (A.setRow row.toNat data), 0)

/-- MRROW: read one row (R209). -/
def execMrrow (rs1 : RegIdx) (row : BitVec 8) (s : State) : Host.Outcome State Fault Refusal :=
  perform s do
    let A ← operand s rs1
    checkRange (decide (row.toNat < A.rows))
    return (s, rowWord A row.toNat)

/-- MWCOL: replace one column of MAT[rd] by DATA_IN (R212). -/
def execMwcol (rd : RegIdx) (col : BitVec 8) (data : DataWord) (s : State) : Host.Outcome State Fault Refusal :=
  perform s do
    checkWritable rd
    let A ← operand s rd
    checkRange (decide (col.toNat < A.cols))
    checkSize (fitsWidth data A.rows)
    return (s.setReg rd (A.setCol col.toNat data), 0)

/-- MRCOL: read one column (R215). -/
def execMrcol (rs1 : RegIdx) (col : BitVec 8) (s : State) : Host.Outcome State Fault Refusal :=
  perform s do
    let A ← operand s rs1
    checkRange (decide (col.toNat < A.cols))
    return (s, colWord A col.toNat)

/-- MSHAPE: read the size (R218). -/
def execMshape (rs1 : RegIdx) (s : State) : Host.Outcome State Fault Refusal :=
  perform s do
    let A ← operand s rs1
    return (s, shapeWord A)

/-- STATUS: read the control and status state; STICKY_ERR is not cleared (R221). -/
def execStatus (s : State) : Host.Outcome State Fault Refusal := perform s (.ok (s, statusWord s))

end Sys2Proof.Machine
end

