-- ==== Sys2Proof/Machine/Alu.lean ====
section
/-! DEFINITION. The GF(2) matrix ALU: MADD and MMUL (`40_gf2_alu.md`). -/

namespace Sys2Proof.Machine

/-- MADD: `MAT[rd] <- MAT[rs1] ⊕ MAT[rs2]` (R110). -/
def execMadd (rd rs1 rs2 : RegIdx) (s : State) : Host.Outcome State Fault Refusal :=
  perform s do
    checkWritable rd
    let A ← operand s rs1
    let B ← operand s rs2
    let C ← sum A B
    return (s.setReg rd C, 0)

/-- MMUL: `MAT[rd] <- MAT[rs1] · MAT[rs2]` (R115). -/
def execMmul (rd rs1 rs2 : RegIdx) (s : State) : Host.Outcome State Fault Refusal :=
  perform s do
    checkWritable rd
    let A ← operand s rs1
    let B ← operand s rs2
    let C ← product A B
    return (s.setReg rd C, 0)

end Sys2Proof.Machine
end

