-- ==== Sys2Proof/Machine/Channel.lean ====
section
/-! DEFINITION. The channel simulator: INJECT (`43_channel.md`). -/

namespace Sys2Proof.Machine

/-- INJECT: `MAT[rd] <- MAT[rs1] ⊕ e_n(pos)`; the range is 1..CODE_N, whatever the operand's size (R170, R172). -/
def execInject (rd rs1 : RegIdx) (pos : BitVec 16) (s : State) : Host.Outcome State Fault Refusal :=
  perform s do
    checkWritable rd
    checkConstructed s
    let c ← operand s rs1
    checkRange (decide (1 ≤ pos.toNat) && decide (pos.toNat ≤ s.codeN))
    checkSize (c.rows == s.codeN && c.cols == 1)
    return (s.setReg rd (madd c (unitVec s.codeN pos.toNat)), 0)

end Sys2Proof.Machine
end

