-- ==== Sys2Proof/Machine/Construct.lean ====
section
/-! DEFINITION. Code construction: CONSTRUCT (`41_code_construction.md`). -/

namespace Sys2Proof.Machine

/-- CONSTRUCT: build G, H and R for m = imm16 and load them into the code registers (R140). -/
def execConstruct (m : BitVec 16) (s : State) : Host.Outcome State Fault Refusal :=
  perform s do
    checkRange (decide (2 ≤ m.toNat) && decide (m.toNat ≤ s.cfg.mMax.toNat))
    return (s.loadCode m.toNat, constructWord m.toNat)

end Sys2Proof.Machine
end

