-- ==== Sys2Proof/Machine/Decoder.lean ====
section
/-! DEFINITION. The syndrome decoder: DECODE (`44_decoder.md`). -/

namespace Sys2Proof.Machine

/-- The lookup and the correction: no flip for 0, else flip index idx - 1 (R183). -/
def correct (n : Nat) (x : Mat) (idx : Nat) : Mat := if idx = 0 then x else madd x (unitVec n idx)

/-- DECODE: syndrome, its integer, correction, extraction (R180 to R184). It reports OK however many bits are wrong (R187,
R190). Two equal destinations make the command illegal (R77 of `30_encoding.md`); the decoder never gives such a term (log
entry 11). On a state where MAT[1] and MAT[2] are not H and R for CODE_M see log entry 10. -/
def execDecode (rd rc rs1 : RegIdx) (s : State) : Host.Outcome State Fault Refusal :=
  perform s do
    if rd = rc then throw .illegalCommand
    checkWritable rd
    checkWritable rc
    checkConstructed s
    let x ← operand s rs1
    let H ← operand s 1
    let R ← operand s 2
    checkSize (x.rows == s.codeN && x.cols == 1)
    let syn ← product H x
    let idx := toInt syn
    let y := correct s.codeN x idx
    let w ← product R y
    return ((s.setReg rd w).setReg rc y, zext256 idx)

end Sys2Proof.Machine
end

