-- ==== Sys2Proof/Machine/Encoder.lean ====
section
/-! DEFINITION. The encoder: ENCODE (`42_encoder.md`). -/

namespace Sys2Proof.Machine

/-- ENCODE: `MAT[rd] <- G · MAT[rs1]`, for a k×1 vector only (R160, R164). In a state where MAT[0] is not G for CODE_M,
which R26 of `10_state.md` rules out, the general rules for operands apply (log entry 10). -/
def execEncode (rd rs1 : RegIdx) (s : State) : Host.Outcome State Fault Refusal :=
  perform s do
    checkWritable rd
    checkConstructed s
    let w ← operand s rs1
    let G ← operand s 0
    checkSize (w.rows == s.codeK && w.cols == 1)
    let c ← product G w
    return (s.setReg rd c, 0)

end Sys2Proof.Machine
end

