-- ==== Sys2Proof/Machine/Dispatch.lean ====
section
/-! DEFINITION. One meaning per command (`30_encoding.md` R73). -/

namespace Sys2Proof.Machine

def exec (i : Instr) (s : State) : Host.Outcome State Fault Refusal :=
  match i with
  | .nop => Sys2Proof.Machine.execNop s
  | .construct m => Sys2Proof.Machine.execConstruct m s
  | .encode rd rs1 => Sys2Proof.Machine.execEncode rd rs1 s
  | .inject rd rs1 pos => Sys2Proof.Machine.execInject rd rs1 pos s
  | .decode rd rc rs1 => Sys2Proof.Machine.execDecode rd rc rs1 s
  | .madd rd rs1 rs2 => Sys2Proof.Machine.execMadd rd rs1 rs2 s
  | .mmul rd rs1 rs2 => Sys2Proof.Machine.execMmul rd rs1 rs2 s
  | .mdim rd rows cols => Sys2Proof.Machine.execMdim rd rows cols s
  | .mwrow rd row data => Sys2Proof.Machine.execMwrow rd row data s
  | .mrrow rs1 row => Sys2Proof.Machine.execMrrow rs1 row s
  | .mwcol rd col data => Sys2Proof.Machine.execMwcol rd col data s
  | .mrcol rs1 col => Sys2Proof.Machine.execMrcol rs1 col s
  | .mshape rs1 => Sys2Proof.Machine.execMshape rs1 s
  | .status => Sys2Proof.Machine.execStatus s

end Sys2Proof.Machine
end

