-- ==== Sys2Proof/Machine/Port.lean ====
section
/-! DEFINITION. What one action of the host does (`70_reset_and_hazards.md` R290 to R297; `30_encoding.md` R80). -/

namespace Sys2Proof.Machine

/-- The core performs a command: the decoded instruction, or IllegalCommand (`30_encoding.md` R79, R80). -/
def runCommand (c : Command) (s : State) : Host.Outcome State Fault Refusal :=
  match decode c with
  | .instr i => exec i s
  | .illegal _ => .next (s.raise .illegalCommand)

/-- One action of the host. A command transfers only when the core is idle (R296); one cut by reset writes nothing and
gives no response (R291). -/
def act (a : HostAction) (s : State) : Host.Outcome State Fault Refusal :=
  match a with
  | .command c => if s.cmdReady then runCommand c s else .refused .portBusy
  | .commandCutByReset _ => if s.cmdReady then .next s.applyReset else .refused .portBusy
  | .takeResponse => .next s.takeResponse
  | .reset => .next s.applyReset
  | .powerLoss => .refused .powerLost

/-- The host sends the command `c` next: it first takes a response that waits, as it must (R297). -/
def State.offer (s : State) (c : Command) : State :=
  { s.takeResponse with inbox := .command c :: s.inbox }

end Sys2Proof.Machine
end

