-- ==== Sys2Proof/Machine/Step.lean ====
section
/-! DEFINITION. One step: the next action of the host, or nothing when it has none. -/

namespace Sys2Proof.Machine

/-- One step. With nothing to do the core is idle and holds its state (`60_exceptions.md` R277; log entry 4). -/
def step (s : State) : Host.Outcome State Fault Refusal :=
  match s.inbox with
  | [] => .next s
  | a :: rest => act a { s with inbox := rest }

/-- The command with the given bits is the very next thing the host sends (log entry 2). -/
def State.withFetchWord (s : State) (nbits w : Nat) : State := s.offer (commandOfBits nbits w)

end Sys2Proof.Machine
end

