-- ==== Sys2Proof/Machine/Assembler.lean ====
section
/-! DEFINITION. Assembler text and pseudo-instructions (`30_encoding.md` R84, R85; `10_state.md` R25). A line is a list of
characters. What the spec leaves open about the text (white space, letter case of hexadecimal digits) is log entry 12. -/

namespace Sys2Proof.Machine

/-! ### Pseudo-instructions (R85) -/

/-- The six pseudo-instructions. -/
inductive Pseudo
  | syndrome (rd rs : RegIdx)
  | extract (rd rs : RegIdx)
  | vload (rd : RegIdx) (len : BitVec 8) (data : DataWord)
  | vread (rs : RegIdx)
  | chkhg (rd : RegIdx)
  | chkrg (rd : RegIdx)
  deriving DecidableEq, Repr

/-- The commands a pseudo-instruction stands for; none is a new command (R85). -/
def Pseudo.expand : Pseudo → List Instr
  | .syndrome rd rs => [.mmul rd 1 rs]
  | .extract rd rs => [.mmul rd 2 rs]
  | .vload rd len data => [.mdim rd len 1, .mwcol rd 0 data]
  | .vread rs => [.mrcol rs 0]
  | .chkhg rd => [.mmul rd 1 0]
  | .chkrg rd => [.mmul rd 2 0]

/-! ### Text (R84) -/

/-- Why a line does not assemble. -/
inductive AsmError
  | unknownMnemonic
  | operandCount
  | badRegister
  | badInteger
  /-- An immediate or DATA operand that does not fit its field; the assembler does not truncate (R84). -/
  | tooLarge
  deriving DecidableEq, Repr

/-- The value of a decimal digit. -/
def digitValue (c : Char) : Option Nat := if '0' ≤ c ∧ c ≤ '9' then some (c.toNat - '0'.toNat) else none

/-- The value of a hexadecimal digit of either case. -/
def hexValue (c : Char) : Option Nat :=
  if '0' ≤ c ∧ c ≤ '9' then some (c.toNat - '0'.toNat)
  else if 'a' ≤ c ∧ c ≤ 'f' then some (c.toNat - 'a'.toNat + 10)
  else if 'A' ≤ c ∧ c ≤ 'F' then some (c.toNat - 'A'.toNat + 10)
  else none

/-- The value of digits in a base, given what came before. -/
def digitsValue (base : Nat) (value : Char → Option Nat) : Nat → List Char → Option Nat
  | acc, [] => some acc
  | acc, c :: cs =>
    match value c with
    | some d => digitsValue base value (base * acc + d) cs
    | none => none

/-- An integer: decimal, or hexadecimal with `0x`. -/
def parseInteger (cs : List Char) : Except AsmError Nat :=
  let value :=
    match cs with
    | '0' :: 'x' :: d :: ds => digitsValue 16 hexValue 0 (d :: ds)
    | d :: ds => digitsValue 10 digitValue 0 (d :: ds)
    | [] => none
  match value with
  | some v => .ok v
  | none => .error .badInteger

/-- A register: `m0`..`m15`, or `g`, `h`, `r` for m0, m1, m2 (`10_state.md` R25). -/
def parseRegister (cs : List Char) : Except AsmError RegIdx :=
  let number :=
    match cs with
    | ['g'] => some 0
    | ['h'] => some 1
    | ['r'] => some 2
    | ['m', d] => digitValue d
    | ['m', '1', d] => (digitValue d).map (10 + ·)
    | _ => none
  match number with
  | some n => if h : n < 16 then .ok ⟨n, h⟩ else .error .badRegister
  | none => .error .badRegister

/-- An integer that must fit a field of `w` bits. -/
def parseField (w : Nat) (cs : List Char) : Except AsmError (BitVec w) := do
  let v ← parseInteger cs
  if v < 2 ^ w then return BitVec.ofNat w v else throw .tooLarge

/-- The instruction of a mnemonic and its operands: destinations, then sources, then immediates (R84). -/
def assembleOp (o : Op) (args : List (List Char)) : Except AsmError Instr :=
  match o, args with
  | .nop, [] => return .nop
  | .construct, [m] => return .construct (← parseField 16 m)
  | .encode, [rd, rs1] => return .encode (← parseRegister rd) (← parseRegister rs1)
  | .inject, [rd, rs1, pos] => return .inject (← parseRegister rd) (← parseRegister rs1) (← parseField 16 pos)
  | .decode, [rd, rc, rs1] => return .decode (← parseRegister rd) (← parseRegister rc) (← parseRegister rs1)
  | .madd, [rd, rs1, rs2] => return .madd (← parseRegister rd) (← parseRegister rs1) (← parseRegister rs2)
  | .mmul, [rd, rs1, rs2] => return .mmul (← parseRegister rd) (← parseRegister rs1) (← parseRegister rs2)
  | .mdim, [rd, rows, cols] => return .mdim (← parseRegister rd) (← parseField 8 rows) (← parseField 8 cols)
  | .mwrow, [rd, row, data] => return .mwrow (← parseRegister rd) (← parseField 8 row) (← parseField 256 data)
  | .mrrow, [rs1, row] => return .mrrow (← parseRegister rs1) (← parseField 8 row)
  | .mwcol, [rd, col, data] => return .mwcol (← parseRegister rd) (← parseField 8 col) (← parseField 256 data)
  | .mrcol, [rs1, col] => return .mrcol (← parseRegister rs1) (← parseField 8 col)
  | .mshape, [rs1] => return .mshape (← parseRegister rs1)
  | .status, [] => return .status
  | _, _ => throw .operandCount

/-- The names of the pseudo-instructions (R85). -/
inductive PseudoOp
  | syndrome | extract | vload | vread | chkhg | chkrg
  deriving DecidableEq, Repr

/-- The pseudo-instruction of a mnemonic and its operands (R85). -/
def assemblePseudo (p : PseudoOp) (args : List (List Char)) : Except AsmError Pseudo :=
  match p, args with
  | .syndrome, [rd, rs] => return .syndrome (← parseRegister rd) (← parseRegister rs)
  | .extract, [rd, rs] => return .extract (← parseRegister rd) (← parseRegister rs)
  | .vload, [rd, len, data] => return .vload (← parseRegister rd) (← parseField 8 len) (← parseField 256 data)
  | .vread, [rs] => return .vread (← parseRegister rs)
  | .chkhg, [rd] => return .chkhg (← parseRegister rd)
  | .chkrg, [rd] => return .chkrg (← parseRegister rd)
  | _, _ => throw .operandCount

/-- The mnemonics of the commands, in lower case (R84). -/
def opNames : List (List Char × Op) :=
  [("nop".toList, .nop), ("construct".toList, .construct), ("encode".toList, .encode),
   ("inject".toList, .inject), ("decode".toList, .decode), ("madd".toList, .madd), ("mmul".toList, .mmul),
   ("mdim".toList, .mdim), ("mwrow".toList, .mwrow), ("mrrow".toList, .mrrow), ("mwcol".toList, .mwcol),
   ("mrcol".toList, .mrcol), ("mshape".toList, .mshape), ("status".toList, .status)]

/-- The mnemonics of the pseudo-instructions (R85). -/
def pseudoNames : List (List Char × PseudoOp) :=
  [("syndrome".toList, .syndrome), ("extract".toList, .extract), ("vload".toList, .vload),
   ("vread".toList, .vread), ("chkhg".toList, .chkhg), ("chkrg".toList, .chkrg)]

/-- White space: a blank or a tab (log entry 12). -/
def isBlank (c : Char) : Bool := c == ' ' || c == '\t'

/-- Text without white space at either end. -/
def trimBlanks (cs : List Char) : List Char :=
  ((cs.dropWhile isBlank).reverse.dropWhile isBlank).reverse

/-- The parts of a text between its commas; a text without a comma is one part. -/
def splitCommas : List Char → List (List Char)
  | [] => [[]]
  | c :: cs =>
    if c = ',' then [] :: splitCommas cs
    else match splitCommas cs with
      | [] => [[c]]
      | part :: parts => (c :: part) :: parts

/-- The operands of a line after its mnemonic. -/
def operandTexts (cs : List Char) : List (List Char) :=
  match trimBlanks cs with
  | [] => []
  | d :: ds => (splitCommas (d :: ds)).map trimBlanks

/-- The instructions of a mnemonic and its operands. -/
def assembleWords (name : List Char) (args : List (List Char)) : Except AsmError (List Instr) :=
  match opNames.lookup name, pseudoNames.lookup name with
  | some o, _ => return [← assembleOp o args]
  | none, some p => return (← assemblePseudo p args).expand
  | none, none => throw .unknownMnemonic

/-- The commands of one line: none for a blank line or a comment, two for `vload`, else one. A line that assembles may
still be one the core refuses (R84). -/
def assembleLine (line : List Char) : Except AsmError (List Command) := do
  let code := trimBlanks (line.takeWhile (· != ';'))
  if code.isEmpty then return []
  let instrs ← assembleWords (code.takeWhile (!isBlank ·)) (operandTexts (code.dropWhile (!isBlank ·)))
  return instrs.map encode

end Sys2Proof.Machine
end

