-- ==== Sys2Proof/Safety.lean ====
section
/-! DEFINITION. The terms claims are stated in: the invariant, how a command ends, and what it reads, writes and checks
(`10_state.md` R22 to R27; `60_exceptions.md` R263 to R265). -/

namespace Sys2Proof.Machine

/-! ### The invariant -/

/-- What a register may hold: Empty, or a matrix of 1..N_MAX rows and columns (`10_state.md` R22). -/
def MatReg.fits (n : Nat) : MatReg → Bool
  | .empty => true
  | .full A => decide (1 ≤ A.rows) && decide (A.rows ≤ n) && decide (1 ≤ A.cols) && decide (A.cols ≤ n)

/-- No code, or exactly the code of CODE_M (`10_state.md` R26, R27). -/
abbrev State.codeConsistent (s : State) : Prop :=
  (s.codeM = 0 ∧ s.reg 0 = .empty ∧ s.reg 1 = .empty ∧ s.reg 2 = .empty) ∨
  (2 ≤ s.codeM.toNat ∧ s.codeM.toNat ≤ s.cfg.mMax.toNat ∧
    s.reg 0 = .full (gMat s.codeM.toNat) ∧ s.reg 1 = .full (hMat s.codeM.toNat) ∧
    s.reg 2 = .full (rMat s.codeM.toNat))

/-- The invariant of the core: every register's size is legal and the code registers agree with CODE_M (`10_state.md`
R22, R26). -/
abbrev State.Inv (s : State) : Prop :=
  (∀ r : RegIdx, (s.reg r).fits (nMax s.cfg) = true) ∧ s.codeConsistent

/-! ### How a command ends -/

/-- From `s` to `t` a command has ended with result OK and DATA_OUT `out`, and has written no register outside
`written`, nor CODE_M, STICKY_ERR, the configuration or anything of the host (`10_state.md` R35). -/
structure Completed (s t : State) (written : List RegIdx) (out : DataWord) : Prop where
  rsp : t.rsp = some ⟨.ok, out⟩
  reg : ∀ r, r ∉ written → t.reg r = s.reg r
  codeM : t.codeM = s.codeM
  stickyErr : t.stickyErr = s.stickyErr
  cfg : t.cfg = s.cfg
  inbox : t.inbox = s.inbox
  taken : t.taken = s.taken

/-- From `s` to `t` a command has ended with error `e`: nothing is written but STICKY_ERR, which is 1, and DATA_OUT is 0
(`60_exceptions.md` R263). -/
structure Failed (s t : State) (e : CmdError) : Prop where
  rsp : t.rsp = some ⟨.error e, 0⟩
  reg : ∀ r, t.reg r = s.reg r
  codeM : t.codeM = s.codeM
  stickyErr : t.stickyErr = true
  cfg : t.cfg = s.cfg
  inbox : t.inbox = s.inbox
  taken : t.taken = s.taken

end Sys2Proof.Machine

namespace Sys2Proof
open Machine

/-! ### What a command reads, writes and checks -/

/-- The registers a command writes when it ends OK, CONSTRUCT's code registers apart (`10_state.md` R24). -/
def Instr.dests : Instr → List RegIdx
  | .nop => []
  | .construct _ => []
  | .encode rd _ => [rd]
  | .inject rd _ _ => [rd]
  | .decode rd rc _ => [rd, rc]
  | .madd rd _ _ => [rd]
  | .mmul rd _ _ => [rd]
  | .mdim rd _ _ => [rd]
  | .mwrow rd _ _ => [rd]
  | .mrrow _ _ => []
  | .mwcol rd _ _ => [rd]
  | .mrcol _ _ => []
  | .mshape _ => []
  | .status => []

/-- The registers a command reads as operands (`60_exceptions.md` R262, Unwritten). -/
def Instr.sources : Instr → List RegIdx
  | .nop => []
  | .construct _ => []
  | .encode _ rs1 => [rs1]
  | .inject _ rs1 _ => [rs1]
  | .decode _ _ rs1 => [rs1]
  | .madd _ rs1 rs2 => [rs1, rs2]
  | .mmul _ rs1 rs2 => [rs1, rs2]
  | .mdim _ _ _ => []
  | .mwrow rd _ _ => [rd]
  | .mrrow rs1 _ => [rs1]
  | .mwcol rd _ _ => [rd]
  | .mrcol rs1 _ => [rs1]
  | .mshape rs1 => [rs1]
  | .status => []

/-- The commands that need a constructed code (`60_exceptions.md` R262, NotConstructed). -/
def Instr.needsCode : Instr → Bool
  | .nop => false
  | .construct _ => false
  | .encode _ _ => true
  | .inject _ _ _ => true
  | .decode _ _ _ => true
  | .madd _ _ _ => false
  | .mmul _ _ _ => false
  | .mdim _ _ _ => false
  | .mwrow _ _ _ => false
  | .mrrow _ _ => false
  | .mwcol _ _ _ => false
  | .mrcol _ _ => false
  | .mshape _ => false
  | .status => false

/-- The rows of a register, 0 where it is Empty. -/
def Machine.MatReg.rows : MatReg → Nat
  | .empty => 0
  | .full A => A.rows

/-- The columns of a register, 0 where it is Empty. -/
def Machine.MatReg.cols : MatReg → Nat
  | .empty => 0
  | .full A => A.cols

/-- An immediate is out of range (`60_exceptions.md` R261, InvalidParameter). -/
def Instr.outOfRange (s : State) : Instr → Prop
  | .nop => False
  | .construct m => m.toNat < 2 ∨ s.cfg.mMax.toNat < m.toNat
  | .encode _ _ => False
  | .inject _ _ pos => pos.toNat = 0 ∨ s.codeN < pos.toNat
  | .decode _ _ _ => False
  | .madd _ _ _ => False
  | .mmul _ _ _ => False
  | .mdim _ rows cols => rows.toNat = 0 ∨ nMax s.cfg < rows.toNat ∨ cols.toNat = 0 ∨ nMax s.cfg < cols.toNat
  | .mwrow rd row _ => (s.reg rd).rows ≤ row.toNat
  | .mrrow rs1 row => (s.reg rs1).rows ≤ row.toNat
  | .mwcol rd col _ => (s.reg rd).cols ≤ col.toNat
  | .mrcol rs1 col => (s.reg rs1).cols ≤ col.toNat
  | .mshape _ => False
  | .status => False

/-- An operand's size does not fit, or DATA_IN has a bit beyond the addressed width (`60_exceptions.md` R261,
DimensionMismatch). -/
def Instr.wrongSize (s : State) : Instr → Prop
  | .nop => False
  | .construct _ => False
  | .encode _ rs1 => (s.reg rs1).rows ≠ s.codeK ∨ (s.reg rs1).cols ≠ 1
  | .inject _ rs1 _ => (s.reg rs1).rows ≠ s.codeN ∨ (s.reg rs1).cols ≠ 1
  | .decode _ _ rs1 => (s.reg rs1).rows ≠ s.codeN ∨ (s.reg rs1).cols ≠ 1
  | .madd _ rs1 rs2 => (s.reg rs1).rows ≠ (s.reg rs2).rows ∨ (s.reg rs1).cols ≠ (s.reg rs2).cols
  | .mmul _ rs1 rs2 => (s.reg rs1).cols ≠ (s.reg rs2).rows
  | .mdim _ _ _ => False
  | .mwrow rd _ data => ∃ j, (s.reg rd).cols ≤ j ∧ data.getLsbD j = true
  | .mrrow _ _ => False
  | .mwcol rd _ data => ∃ i, (s.reg rd).rows ≤ i ∧ data.getLsbD i = true
  | .mrcol _ _ => False
  | .mshape _ => False
  | .status => False

/-- The checks of a command that fail with each error (`60_exceptions.md` R261, R262). -/
def Instr.violates (s : State) (i : Instr) : CmdError → Prop
  | .illegalCommand => i.wellFormed = false
  | .readOnlyRegister => ∃ r ∈ i.dests, r.val ≤ 2
  | .notConstructed => i.needsCode = true ∧ s.codeM = 0
  | .unwritten => ∃ r ∈ i.sources, s.reg r = .empty
  | .invalidParameter => i.outOfRange s
  | .dimensionMismatch => i.wrongSize s

/-- The place of an error in the check order (`60_exceptions.md` R264). -/
def Machine.CmdError.rank : CmdError → Nat
  | .illegalCommand => 1
  | .readOnlyRegister => 2
  | .notConstructed => 3
  | .unwritten => 4
  | .invalidParameter => 5
  | .dimensionMismatch => 6

/-- The errors a command can give (`60_exceptions.md` R265). -/
def Instr.mayGive : Instr → List CmdError
  | .nop => [.illegalCommand]
  | .construct _ => [.illegalCommand, .invalidParameter]
  | .encode _ _ => [.illegalCommand, .readOnlyRegister, .notConstructed, .unwritten, .dimensionMismatch]
  | .inject _ _ _ =>
    [.illegalCommand, .readOnlyRegister, .notConstructed, .unwritten, .invalidParameter, .dimensionMismatch]
  | .decode _ _ _ => [.illegalCommand, .readOnlyRegister, .notConstructed, .unwritten, .dimensionMismatch]
  | .madd _ _ _ => [.illegalCommand, .readOnlyRegister, .unwritten, .dimensionMismatch]
  | .mmul _ _ _ => [.illegalCommand, .readOnlyRegister, .unwritten, .dimensionMismatch]
  | .mdim _ _ _ => [.illegalCommand, .readOnlyRegister, .invalidParameter]
  | .mwrow _ _ _ => [.illegalCommand, .readOnlyRegister, .unwritten, .invalidParameter, .dimensionMismatch]
  | .mrrow _ _ => [.illegalCommand, .unwritten, .invalidParameter]
  | .mwcol _ _ _ => [.illegalCommand, .readOnlyRegister, .unwritten, .invalidParameter, .dimensionMismatch]
  | .mrcol _ _ => [.illegalCommand, .unwritten, .invalidParameter]
  | .mshape _ => [.illegalCommand, .unwritten]
  | .status => [.illegalCommand]

end Sys2Proof
end

