-- ==== Sys2Proof/Certificates/Slice0/Obligations.lean ====
section
/-! DEFINITION. The statements for the provers, from the numbered rules of spec/. -/

open Sys2Proof Sys2Proof.Machine

/-! ### Encoding (`30_encoding.md`) -/

/-- R79, R81: encoding is the inverse of decoding on legal commands, for every operand value. -/
def Obligations.DecodeOfEncodeIsTheInstruction : Prop :=
  ∀ i : Instr, i.wellFormed = true → decode (encode i) = .instr i

/-- R78, R81: a legal word is the encoding of the instruction it decodes to, so no two words encode one instruction; with
MWROW and MWCOL the DATA_IN word is kept too. -/
def Obligations.EveryLegalWordIsAnEncoding : Prop :=
  ∀ (c : Command) (i : Instr), decode c = .instr i →
    i.wellFormed = true ∧ (encode i).word = c.word ∧
    (i.op = .mwrow ∨ i.op = .mwcol → (encode i).dataIn = c.dataIn)

/-- R73, R74, R75: a row's match and mask hold of a word exactly when its opcode is the row's and every field that the
field table marks 0 is 0. -/
def Obligations.MasksAgreeWithTheFieldTable : Prop :=
  ∀ (o : Op) (w : CmdWord), o.hits w = true ↔ fieldOp w = o.code ∧ o.zeroFields w

/-- R74: no word matches two rows. -/
def Obligations.NoWordMatchesTwoRows : Prop :=
  ∀ (w : CmdWord) (o o' : Op), o.hits w = true → o'.hits w = true → o = o'

/-- R75, R76, R77, R80: which words are illegal, for which reason, and that each ends in IllegalCommand and writes nothing
but STICKY_ERR. -/
def Obligations.IllegalWordsExactly : Prop :=
  ∀ c : Command,
    (decode c = .illegal .reservedOpcode ↔ 14 ≤ (fieldOp c.word).toNat) ∧
    (decode c = .illegal .mustBeZero ↔
      (fieldOp c.word).toNat < 14 ∧ ∀ o : Op, ¬ (fieldOp c.word = o.code ∧ o.zeroFields c.word)) ∧
    (decode c = .illegal .sameDestination ↔
      fieldOp c.word = Op.decode.code ∧ Op.decode.zeroFields c.word ∧ fieldRd c.word = fieldRs2 c.word) ∧
    (∀ (why : Illegal) (s : State), decode c = .illegal why →
      ∃ t, runCommand c s = .next t ∧ Failed s t .illegalCommand)

/-- R31: DATA_IN is read by MWROW and MWCOL only. -/
def Obligations.OnlyRowAndColumnWritesReadDataIn : Prop :=
  ∀ (w : CmdWord) (d d' : DataWord), fieldOp w ≠ Op.mwrow.code → fieldOp w ≠ Op.mwcol.code →
    ∀ s : State, runCommand ⟨w, d⟩ s = runCommand ⟨w, d'⟩ s

/-- R82, R83: each assembler line the spec lists gives the word it lists, that word decodes to the command and is its
encoding; and each word it lists as illegal is illegal for the reason it gives. -/
def Obligations.ListedWordsDecode : Prop :=
  (∀ p ∈ [("nop", (⟨0x00000000, 0⟩ : Command), Instr.nop),
      ("construct 3", ⟨0x00030001, 0⟩, .construct 3),
      ("encode m4, m3", ⟨0x00000342, 0⟩, .encode 4 3),
      ("inject m5, m4, 3", ⟨0x00030453, 0⟩, .inject 5 4 3),
      ("decode m6, m7, m5", ⟨0x00007564, 0⟩, .decode 6 7 5),
      ("madd m5, m3, m4", ⟨0x00004355, 0⟩, .madd 5 3 4),
      ("mmul m3, h, g", ⟨0x00000136, 0⟩, .mmul 3 1 0),
      ("mdim m3, 4, 1", ⟨0x01040037, 0⟩, .mdim 3 4 1),
      ("mwrow m3, 2, 0x1", ⟨0x00020038, 1⟩, .mwrow 3 2 1),
      ("mrrow g, 6", ⟨0x00060009, 0⟩, .mrrow 0 6),
      ("mwcol m3, 0, 0x1", ⟨0x0000003A, 1⟩, .mwcol 3 0 1),
      ("mrcol m4, 0", ⟨0x0000040B, 0⟩, .mrcol 4 0),
      ("mshape h", ⟨0x0000010C, 0⟩, .mshape 1),
      ("status", ⟨0x0000000D, 0⟩, .status)],
    assembleLine p.1.toList = .ok [p.2.1] ∧ decode p.2.1 = .instr p.2.2 ∧ encode p.2.2 = p.2.1) ∧
  (∀ p ∈ [((0x0000000E : CmdWord), Illegal.reservedOpcode), (0xFFFFFFFF, .reservedOpcode), (0x00000010, .mustBeZero),
      (0x00030011, .mustBeZero), (0x00010342, .mustBeZero), (0x00001453, .mustBeZero), (0x00006564, .sameDestination),
      (0x00014355, .mustBeZero), (0x01040137, .mustBeZero), (0x01020038, .mustBeZero), (0x00060019, .mustBeZero),
      (0x0001010C, .mustBeZero), (0x0000100D, .mustBeZero)],
    decode ⟨p.1, 0⟩ = .illegal p.2)

/-- R85: the expansions of the six pseudo-instructions; and under a constructed code `syndrome` gives H·RS alone and
`extract` gives R·RS alone, in a register. -/
def Obligations.PseudoInstructionsExpand : Prop :=
  (∀ (rd rs : RegIdx) (len : BitVec 8) (data : DataWord),
    (Pseudo.syndrome rd rs).expand = [.mmul rd 1 rs] ∧ (Pseudo.extract rd rs).expand = [.mmul rd 2 rs] ∧
    (Pseudo.vload rd len data).expand = [.mdim rd len 1, .mwcol rd 0 data] ∧
    (Pseudo.vread rs).expand = [.mrcol rs 0] ∧
    (Pseudo.chkhg rd).expand = [.mmul rd 1 0] ∧ (Pseudo.chkrg rd).expand = [.mmul rd 2 0]) ∧
  ∀ (s : State) (rd rs : RegIdx) (x : Mat), s.Inv → s.codeM ≠ 0 → 3 ≤ rd.val → s.reg rs = .full x → x.rows = s.codeN →
    (∃ i t, (Pseudo.syndrome rd rs).expand = [i] ∧ exec i s = .next t ∧ Completed s t [rd] 0 ∧
      t.reg rd = .full (mmul (hMat s.codeM.toNat) x)) ∧
    (∃ i t, (Pseudo.extract rd rs).expand = [i] ∧ exec i s = .next t ∧ Completed s t [rd] 0 ∧
      t.reg rd = .full (mmul (rMat s.codeM.toNat) x))

/-! ### The step and the port (`10_state.md` R34, R35; `70_reset_and_hazards.md`) -/

/-- R34, R35: when the core is idle and the host sends a command that decodes to `i`, the step is `exec i` on the state
without that action; and a command the host is made to offer next is the very next one performed. -/
def Obligations.StepPerformsTheDecodedCommand : Prop :=
  (∀ (s : State) (c : Command) (rest : List HostAction) (i : Instr),
    s.inbox = .command c :: rest → s.rsp = none → decode c = .instr i →
      step s = exec i { s with inbox := rest }) ∧
  (∀ (s : State) (c : Command) (i : Instr), decode c = .instr i → step (s.offer c) = exec i s.takeResponse)

/-- R277: with nothing to do the core is idle and holds its state. -/
def Obligations.IdleCoreHoldsItsState : Prop :=
  ∀ s : State, s.inbox = [] → step s = .next s

/-- R296: the core takes no command while a response waits to be taken; the model refuses the host that sends one
(log entry 7). -/
def Obligations.BusyCoreTakesNoCommand : Prop :=
  ∀ (s : State) (c : Command) (rest : List HostAction) (r : Response), s.rsp = some r →
    s.inbox = .command c :: rest ∨ s.inbox = .commandCutByReset c :: rest → step s = .refused .portBusy

/-- R295: taking a response hands exactly it to the host, makes the core ready and changes nothing else. -/
def Obligations.TakingAResponseFreesThePort : Prop :=
  ∀ (s : State) (rest : List HostAction) (r : Response), s.rsp = some r → s.inbox = .takeResponse :: rest →
    ∃ t, step s = .next t ∧ t.taken = s.taken ++ [r] ∧ t.rsp = none ∧ t.cmdReady = true ∧ t.inbox = rest ∧
      (∀ q, t.reg q = s.reg q) ∧ t.codeM = s.codeM ∧ t.stickyErr = s.stickyErr ∧ t.cfg = s.cfg

/-- R290: reset puts every piece of state at its reset value, whatever it was; the core is then idle with no response
pending, ready for a command. -/
def Obligations.ResetRestoresTheResetState : Prop :=
  ∀ (s : State) (rest : List HostAction), s.inbox = .reset :: rest →
    ∃ t, step s = .next t ∧ (∀ q, t.reg q = .empty) ∧ t.codeM = 0 ∧ t.stickyErr = false ∧ t.rsp = none ∧
      t.cmdReady = true

/-- R291: a command cut by reset gives no response and writes nothing; the state is the reset state. -/
def Obligations.ResetAbandonsACommand : Prop :=
  ∀ (s : State) (c : Command) (rest : List HostAction), s.rsp = none → s.inbox = .commandCutByReset c :: rest →
    ∃ t, step s = .next t ∧ (∀ q, t.reg q = .empty) ∧ t.codeM = 0 ∧ t.stickyErr = false ∧ t.rsp = none ∧
      t.taken = s.taken

/-- Reset, between commands or during one, leaves the configuration (R37) and the host as they were: what the host has taken
and what it does next. The host's part is the model's choice (log entry 6). -/
def Obligations.ResetLeavesTheHostAlone : Prop :=
  ∀ (s t : State) (rest : List HostAction) (a : HostAction), s.inbox = a :: rest →
    a = .reset ∨ (∃ c, a = .commandCutByReset c) → step s = .next t →
    t.cfg = s.cfg ∧ t.inbox = rest ∧ t.taken = s.taken

/-- R37: the reset values, for every configuration. -/
def Obligations.ResetValues : Prop :=
  ∀ cfg : Config, (∀ q, (State.init cfg).reg q = .empty) ∧ (State.init cfg).codeM = 0 ∧ (State.init cfg).codeN = 0 ∧
    (State.init cfg).codeK = 0 ∧ (State.init cfg).stickyErr = false ∧ (State.init cfg).cfg = cfg ∧
    (State.init cfg).rsp = none

/-- R34, R295: every command, legal or not, in every state, is performed in one step and gives exactly one response. -/
def Obligations.EveryCommandGetsOneResponse : Prop :=
  ∀ (s : State) (c : Command) (rest : List HostAction), s.rsp = none → s.inbox = .command c :: rest →
    ∃ t r, step s = .next t ∧ t.rsp = some r ∧ t.inbox = rest ∧ t.taken = s.taken ∧ t.cfg = s.cfg

/-! ### The whole machine -/

/-- R22, R26, R37: the reset state meets the invariant, for every configuration. -/
def Obligations.ResetMeetsTheInvariant : Prop :=
  ∀ cfg : Config, (State.init cfg).Inv

/-- R22, R26, R27, R105, R142: every step, whatever the host does, keeps the invariant: registers hold matrices of legal
size, and the code registers are Empty with CODE_M = 0 or exactly G, H and R for CODE_M. -/
def Obligations.EveryStepKeepsTheInvariant : Prop :=
  ∀ s t : State, s.Inv → step s = .next t → t.Inv

/-- R23, R27: only CONSTRUCT writes the code registers and CODE_M. -/
def Obligations.OnlyConstructWritesTheCode : Prop :=
  ∀ (i : Instr) (s t : State), (∀ m, i ≠ .construct m) → exec i s = .next t →
    t.codeM = s.codeM ∧ t.reg 0 = s.reg 0 ∧ t.reg 1 = s.reg 1 ∧ t.reg 2 = s.reg 2

/-- R23, R262: a command other than CONSTRUCT that would write a code register ends with ReadOnlyRegister. -/
def Obligations.CodeRegisterDestinationsAreRefused : Prop :=
  ∀ (i : Instr) (s : State), i.wellFormed = true → (∃ r ∈ i.dests, r.val ≤ 2) →
    ∃ t, exec i s = .next t ∧ Failed s t .readOnlyRegister

/-- R263: a failing command, illegal words included, commits none of its writes, sets STICKY_ERR and answers DATA_OUT = 0,
and once the response is taken the core is ready for the next command. -/
def Obligations.FailingCommandWritesNothing : Prop :=
  ∀ (c : Command) (s t : State) (e : CmdError) (v : DataWord),
    runCommand c s = .next t → t.rsp = some ⟨.error e, v⟩ → Failed s t e ∧ t.takeResponse.cmdReady = true

/-- R29: STICKY_ERR is 0 at reset; a command sets it exactly when its result is not OK and never clears it; only reset
does; STATUS reports it and leaves it unchanged. -/
def Obligations.StickyErrRecordsFailures : Prop :=
  (∀ cfg, (State.init cfg).stickyErr = false) ∧
  (∀ (c : Command) (s t : State), runCommand c s = .next t →
    ∃ r, t.rsp = some r ∧ t.stickyErr = (s.stickyErr || decide (r.result ≠ .ok))) ∧
  (∀ s t : State, s.stickyErr = true → step s = .next t → t.stickyErr = true ∨
    ∃ rest, s.inbox = .reset :: rest ∨ ∃ c, s.inbox = .commandCutByReset c :: rest) ∧
  (∀ s : State, ∃ t out, exec .status s = .next t ∧ t.rsp = some ⟨.ok, out⟩ ∧
    out.getLsbD 8 = s.stickyErr ∧ t.stickyErr = s.stickyErr)

/-- R30: no command reads STICKY_ERR to decide what it does: changing it changes no register written, no result and, but
for STATUS, no response. -/
def Obligations.NoCommandDependsOnStickyErr : Prop :=
  ∀ (i : Instr) (s : State) (b : Bool), ∃ t t' r r',
    exec i s = .next t ∧ exec i { s with stickyErr := b } = .next t' ∧
    t'.mat = t.mat ∧ t'.codeM = t.codeM ∧ t.rsp = some r ∧ t'.rsp = some r' ∧
    r'.result = r.result ∧ (i ≠ .status → r' = r)

/-- R292: with no reset, no step clears STICKY_ERR, returns CODE_M to 0 or makes any register Empty again. -/
def Obligations.OnlyResetRemovesTheCode : Prop :=
  ∀ s t : State, step s = .next t → (∀ rest, s.inbox ≠ .reset :: rest) →
    (∀ c rest, s.inbox ≠ .commandCutByReset c :: rest) →
    (s.stickyErr = true → t.stickyErr = true) ∧ (s.codeM ≠ 0 → t.codeM ≠ 0) ∧
    (∀ r, s.reg r ≠ .empty → t.reg r ≠ .empty)

/-- R264: the result of a command is the first failing check, in the spec's order, and is OK when none fails; an illegal word
is found before any other check is made. -/
def Obligations.ResultIsTheFirstFailingCheck : Prop :=
  (∀ (c : Command) (why : Illegal) (s : State), decode c = .illegal why →
    ∃ t, runCommand c s = .next t ∧ Failed s t .illegalCommand) ∧
  ∀ (i : Instr) (s : State), s.Inv →
    (∀ e : CmdError, (∃ t, exec i s = .next t ∧ Failed s t e) ↔
      (i.violates s e ∧ ∀ e' : CmdError, e'.rank < e.rank → ¬ i.violates s e')) ∧
    ((∃ t out, exec i s = .next t ∧ t.rsp = some ⟨.ok, out⟩) ↔ ∀ e : CmdError, ¬ i.violates s e)

/-- R265: a command gives no error outside its row of the table of results, in any state. -/
def Obligations.ErrorsStayInTheirTable : Prop :=
  ∀ (c : Command) (i : Instr) (s t : State) (e : CmdError) (v : DataWord),
    decode c = .instr i → runCommand c s = .next t → t.rsp = some ⟨.error e, v⟩ → e ∈ i.mayGive

/-! ### Register access and status (`45_register_access.md`) -/

/-- R200: NOP, the word 0x00000000, responds OK with DATA_OUT = 0 in every state and changes nothing; any other word with
op = 0x0 is IllegalCommand. -/
def Obligations.NopDoesNothing : Prop :=
  (∀ s : State, ∃ t, exec .nop s = .next t ∧ Completed s t [] 0) ∧
  (∀ d, decode ⟨0x00000000, d⟩ = .instr .nop) ∧
  (∀ (c : Command) (s : State), fieldOp c.word = 0x0 → c.word ≠ 0x00000000 →
    ∃ t, runCommand c s = .next t ∧ Failed s t .illegalCommand)

/-- R203: MDIM makes a register the all-zero matrix of a legal size, whatever it held. -/
def Obligations.MdimMakesAZeroMatrix : Prop :=
  ∀ (s : State) (rd : RegIdx) (rows cols : BitVec 8), 3 ≤ rd.val →
    1 ≤ rows.toNat → rows.toNat ≤ nMax s.cfg → 1 ≤ cols.toNat → cols.toNat ≤ nMax s.cfg →
    ∃ t A, exec (.mdim rd rows cols) s = .next t ∧ Completed s t [rd] 0 ∧ t.reg rd = .full A ∧
      A.rows = rows.toNat ∧ A.cols = cols.toNat ∧ ∀ i j, A.get i j = false

/-- R206, R53: MWROW replaces one row, DATA_IN bit j going to column j, and keeps the size and every other row. -/
def Obligations.MwrowReplacesOneRow : Prop :=
  ∀ (s : State) (rd : RegIdx) (row : BitVec 8) (data : DataWord) (A : Mat), 3 ≤ rd.val → s.reg rd = .full A →
    row.toNat < A.rows → (∀ j, A.cols ≤ j → data.getLsbD j = false) →
    ∃ t B, exec (.mwrow rd row data) s = .next t ∧ Completed s t [rd] 0 ∧ t.reg rd = .full B ∧
      B.rows = A.rows ∧ B.cols = A.cols ∧
      ∀ i < A.rows, ∀ j < A.cols, B.get i j = if i = row.toNat then data.getLsbD j else A.get i j

/-- R212, R53: MWCOL replaces one column, DATA_IN bit i going to row i, and keeps the size and every other column. -/
def Obligations.MwcolReplacesOneColumn : Prop :=
  ∀ (s : State) (rd : RegIdx) (col : BitVec 8) (data : DataWord) (A : Mat), 3 ≤ rd.val → s.reg rd = .full A →
    col.toNat < A.cols → (∀ i, A.rows ≤ i → data.getLsbD i = false) →
    ∃ t B, exec (.mwcol rd col data) s = .next t ∧ Completed s t [rd] 0 ∧ t.reg rd = .full B ∧
      B.rows = A.rows ∧ B.cols = A.cols ∧
      ∀ i < A.rows, ∀ j < A.cols, B.get i j = if j = col.toNat then data.getLsbD i else A.get i j

/-- R209, R53: MRROW answers a row, bit j being column j and 0 above, for any register, and writes nothing. -/
def Obligations.MrrowReadsOneRow : Prop :=
  ∀ (s : State) (rs1 : RegIdx) (row : BitVec 8) (A : Mat), s.reg rs1 = .full A → row.toNat < A.rows →
    ∃ t out, exec (.mrrow rs1 row) s = .next t ∧ Completed s t [] out ∧
      ∀ j < 256, out.getLsbD j = (decide (j < A.cols) && A.get row.toNat j)

/-- R215, R53: MRCOL answers a column, bit i being row i and 0 above, for any register, and writes nothing. -/
def Obligations.MrcolReadsOneColumn : Prop :=
  ∀ (s : State) (rs1 : RegIdx) (col : BitVec 8) (A : Mat), s.reg rs1 = .full A → col.toNat < A.cols →
    ∃ t out, exec (.mrcol rs1 col) s = .next t ∧ Completed s t [] out ∧
      ∀ i < 256, out.getLsbD i = (decide (i < A.rows) && A.get i col.toNat)

/-- R218: MSHAPE answers rows in DATA_OUT[7:0] and columns in [15:8], and writes nothing. -/
def Obligations.MshapeReadsTheSize : Prop :=
  ∀ (s : State) (rs1 : RegIdx) (A : Mat), s.Inv → s.reg rs1 = .full A →
    ∃ t out, exec (.mshape rs1) s = .next t ∧ Completed s t [] out ∧ out.toNat = A.rows + 2 ^ 8 * A.cols

/-- R221: STATUS, the word 0x0000000D, answers CODE_M, STICKY_ERR, M_MAX, CODE_N and CODE_K in their fields, every other
bit 0, and writes nothing; any other word with op = 0xD is IllegalCommand. -/
def Obligations.StatusReadsTheControlState : Prop :=
  (∀ s : State, s.Inv →
    ∃ t out, exec .status s = .next t ∧ Completed s t [] out ∧
      out.toNat = s.codeM.toNat + 2 ^ 8 * s.stickyErr.toNat + 2 ^ 16 * s.cfg.mMax.toNat + 2 ^ 32 * s.codeN
        + 2 ^ 40 * s.codeK) ∧
  (∀ d, decode ⟨0x0000000D, d⟩ = .instr .status) ∧
  (∀ (c : Command) (s : State), fieldOp c.word = 0xD → c.word ≠ 0x0000000D →
    ∃ t, runCommand c s = .next t ∧ Failed s t .illegalCommand)

/-- R56: what MWROW wrote MRROW reads, and what MWCOL wrote MRCOL reads. -/
def Obligations.WrittenRowsAndColumnsReadBack : Prop :=
  ∀ (s : State) (rd : RegIdx) (A : Mat) (data : DataWord), 3 ≤ rd.val → s.reg rd = .full A →
    (∀ row : BitVec 8, row.toNat < A.rows → (∀ j, A.cols ≤ j → data.getLsbD j = false) →
      ∃ t u, exec (.mwrow rd row data) s = .next t ∧ exec (.mrrow rd row) t = .next u ∧ u.rsp = some ⟨.ok, data⟩) ∧
    (∀ col : BitVec 8, col.toNat < A.cols → (∀ i, A.rows ≤ i → data.getLsbD i = false) →
      ∃ t u, exec (.mwcol rd col data) s = .next t ∧ exec (.mrcol rd col) t = .next u ∧ u.rsp = some ⟨.ok, data⟩)

/-- R85, R222: `vload` loads the vector whose element i is bit i of DATA, with or without a code. -/
def Obligations.VloadLoadsAVector : Prop :=
  ∀ (s : State) (rd : RegIdx) (len : BitVec 8) (data : DataWord), 3 ≤ rd.val → 1 ≤ len.toNat →
    len.toNat ≤ nMax s.cfg → (∀ i, len.toNat ≤ i → data.getLsbD i = false) →
    ∃ i j t u A, (Pseudo.vload rd len data).expand = [i, j] ∧ exec i s = .next t ∧ exec j t = .next u ∧
      Completed s u [rd] 0 ∧ u.reg rd = .full A ∧ A.rows = len.toNat ∧ A.cols = 1 ∧
      ∀ l < len.toNat, A.get l 0 = data.getLsbD l

/-! ### The GF(2) ALU (`40_gf2_alu.md`) -/

/-- R110, R102: MADD is element-wise XOR, for any source registers, the sources read before the destination is written. -/
def Obligations.MaddAddsElementwise : Prop :=
  ∀ (s : State) (rd rs1 rs2 : RegIdx) (A B : Mat), 3 ≤ rd.val → s.reg rs1 = .full A → s.reg rs2 = .full B →
    A.rows = B.rows → A.cols = B.cols →
    ∃ t C, exec (.madd rd rs1 rs2) s = .next t ∧ Completed s t [rd] 0 ∧ t.reg rd = .full C ∧
      C.rows = A.rows ∧ C.cols = A.cols ∧ ∀ i < A.rows, ∀ j < A.cols, C.get i j = (A.get i j ^^ B.get i j)

/-- R115, R103: MMUL is the GF(2) product, for any source registers, the sources read before the destination is
written. -/
def Obligations.MmulMultiplies : Prop :=
  ∀ (s : State) (rd rs1 rs2 : RegIdx) (A B : Mat), 3 ≤ rd.val → s.reg rs1 = .full A → s.reg rs2 = .full B →
    A.cols = B.rows →
    ∃ t C, exec (.mmul rd rs1 rs2) s = .next t ∧ Completed s t [rd] 0 ∧ t.reg rd = .full C ∧
      C.rows = A.rows ∧ C.cols = B.cols ∧
      ∀ i < A.rows, ∀ j < B.cols, C.get i j = xorBelow A.cols fun l => A.get i l && B.get l j

/-- R104: the laws (a) to (f) of addition and multiplication. -/
def Obligations.AluAlgebraLaws : Prop :=
  (∀ A B C : Mat, A.rows = B.rows → A.cols = B.cols → B.rows = C.rows → B.cols = C.cols →
    madd A B = madd B A ∧ madd (madd A B) C = madd A (madd B C)) ∧
  (∀ A : Mat, madd A A = Mat.zero A.rows A.cols) ∧
  (∀ A B C : Mat, A.cols = B.rows → B.cols = C.rows → mmul (mmul A B) C = mmul A (mmul B C)) ∧
  (∀ A B C : Mat, A.cols = B.rows → B.rows = C.rows → B.cols = C.cols →
    mmul A (madd B C) = madd (mmul A B) (mmul A C)) ∧
  (∀ A B C : Mat, A.rows = B.rows → A.cols = B.cols → B.cols = C.rows →
    mmul (madd A B) C = madd (mmul A C) (mmul B C)) ∧
  (∀ A : Mat, mmul (Mat.identity A.rows) A = A) ∧
  (∀ (A : Mat) (p : Nat), 1 ≤ p → p ≤ A.cols →
    mmul A (unitVec A.cols p) = Mat.ofFn A.rows 1 fun i _ => A.get i (p - 1))

/-! ### Code construction (`41_code_construction.md`) -/

/-- R140, R141: CONSTRUCT with a legal m loads G, H and R and CODE_M, answers n, k and m, and leaves the general registers
and everything else as they were. -/
def Obligations.ConstructLoadsTheCode : Prop :=
  ∀ (s : State) (m : BitVec 16), 2 ≤ m.toNat → m.toNat ≤ s.cfg.mMax.toNat →
    ∃ t out, exec (.construct m) s = .next t ∧ t.rsp = some ⟨.ok, out⟩ ∧
      out.toNat = codeLen m.toNat + 2 ^ 8 * wordLen m.toNat + 2 ^ 16 * m.toNat ∧
      t.reg 0 = .full (gMat m.toNat) ∧ t.reg 1 = .full (hMat m.toNat) ∧ t.reg 2 = .full (rMat m.toNat) ∧
      t.codeM.toNat = m.toNat ∧ (∀ r : RegIdx, 3 ≤ r.val → t.reg r = s.reg r) ∧
      t.stickyErr = s.stickyErr ∧ t.cfg = s.cfg ∧ t.inbox = s.inbox ∧ t.taken = s.taken

/-- R131, R132: the data positions d_1 .. d_k are, in ascending order, exactly the positions 1..n that are not powers of
two; the spec's table for m = 2, 3 and 4. -/
def Obligations.DataPositionsAreNotPowersOfTwo : Prop :=
  (∀ m t u : Nat, 1 ≤ t → t < u → u ≤ wordLen m → dataPos m t < dataPos m u) ∧
  (∀ m j : Nat, (∃ t, 1 ≤ t ∧ t ≤ wordLen m ∧ dataPos m t = j) ↔ 1 ≤ j ∧ j ≤ codeLen m ∧ ∀ i, j ≠ 2 ^ i) ∧
  dataPositions 2 = [3] ∧ dataPositions 3 = [3, 5, 6, 7] ∧
  dataPositions 4 = [3, 5, 6, 7, 9, 10, 11, 12, 13, 14, 15]

/-- R133, R134, R135: the sizes and every element of H, G and R. -/
def Obligations.CodeMatrixElements : Prop :=
  ∀ m : Nat,
    ((hMat m).rows = m ∧ (hMat m).cols = codeLen m ∧
      ∀ i j, i < m → 1 ≤ j → j ≤ codeLen m → (hMat m).get i (j - 1) = j.testBit i) ∧
    ((gMat m).rows = codeLen m ∧ (gMat m).cols = wordLen m ∧
      (∀ t t', 1 ≤ t → t ≤ wordLen m → 1 ≤ t' → t' ≤ wordLen m →
        (gMat m).get (dataPos m t' - 1) (t - 1) = decide (t' = t)) ∧
      (∀ t i, 1 ≤ t → t ≤ wordLen m → i < m →
        (gMat m).get (2 ^ i - 1) (t - 1) = decide (dataPos m t &&& 2 ^ i ≠ 0) ∧
        (gMat m).get (2 ^ i - 1) (t - 1) = (hMat m).get i (dataPos m t - 1))) ∧
    ((rMat m).rows = wordLen m ∧ (rMat m).cols = codeLen m ∧
      ∀ t j, 1 ≤ t → t ≤ wordLen m → 1 ≤ j → j ≤ codeLen m →
        (rMat m).get (t - 1) (j - 1) = decide (j = dataPos m t))

/-- R137: `H(m) · G(m) = 0`, and on the core `chkhg` gives the m×k zero matrix. -/
def Obligations.ParityCheckAnnihilatesGenerator : Prop :=
  (∀ m : Nat, 2 ≤ m → mmul (hMat m) (gMat m) = Mat.zero m (wordLen m)) ∧
  ∀ (s : State) (rd : RegIdx), s.Inv → s.codeM ≠ 0 → 3 ≤ rd.val →
    ∃ i t, (Pseudo.chkhg rd).expand = [i] ∧ exec i s = .next t ∧ Completed s t [rd] 0 ∧
      t.reg rd = .full (Mat.zero s.codeM.toNat s.codeK)

/-- R138: `R(m) · G(m) = I_k`, and on the core `chkrg` gives the k×k identity. -/
def Obligations.ExtractionInvertsGenerator : Prop :=
  (∀ m : Nat, 2 ≤ m → mmul (rMat m) (gMat m) = Mat.identity (wordLen m)) ∧
  ∀ (s : State) (rd : RegIdx), s.Inv → s.codeM ≠ 0 → 3 ≤ rd.val →
    ∃ i t, (Pseudo.chkrg rd).expand = [i] ∧ exec i s = .next t ∧ Completed s t [rd] 0 ∧
      t.reg rd = .full (Mat.identity s.codeK)

/-- R139: column j - 1 of H reads as the integer j, so the columns are distinct and nonzero, and the syndrome of a single
error at position p is p. -/
def Obligations.ColumnsOfHReadAsTheirPosition : Prop :=
  ∀ m j : Nat, 1 ≤ j → j ≤ codeLen m →
    toInt (Mat.ofFn m 1 fun i _ => (hMat m).get i (j - 1)) = j ∧
    toInt (mmul (hMat m) (unitVec (codeLen m) j)) = j

/-! ### The encoder (`42_encoder.md`) -/

/-- R160, R161: ENCODE gives the codeword: data bits copied through, each parity bit the XOR of the data bits whose
position has its bit. -/
def Obligations.EncodeGivesTheCodeword : Prop :=
  ∀ (s : State) (rd rs1 : RegIdx) (w : Mat), s.Inv → s.codeM ≠ 0 → 3 ≤ rd.val → s.reg rs1 = .full w →
    w.rows = s.codeK → w.cols = 1 →
    ∃ t c, exec (.encode rd rs1) s = .next t ∧ Completed s t [rd] 0 ∧ t.reg rd = .full c ∧
      c.rows = s.codeN ∧ c.cols = 1 ∧
      (∀ u, 1 ≤ u → u ≤ s.codeK → c.get (dataPos s.codeM.toNat u - 1) 0 = w.get (u - 1) 0) ∧
      (∀ i, i < s.codeM.toNat → c.get (2 ^ i - 1) 0 =
        xorBelow s.codeK fun u => (dataPos s.codeM.toNat (u + 1)).testBit i && w.get u 0)

/-- R162, R163: every ENCODE result has syndrome 0, and extraction gives its word back, unchanged at the data positions. -/
def Obligations.CodewordsAreInTheNullSpaceOfH : Prop :=
  (∀ (m : Nat) (w : Mat), 2 ≤ m → w.rows = wordLen m → w.cols = 1 →
    mmul (hMat m) (mmul (gMat m) w) = Mat.zero m 1 ∧ mmul (rMat m) (mmul (gMat m) w) = w) ∧
  ∀ (s t : State) (rd rs1 : RegIdx) (w c : Mat) (v : DataWord), s.Inv → s.reg rs1 = .full w →
    exec (.encode rd rs1) s = .next t → t.rsp = some ⟨.ok, v⟩ → t.reg rd = .full c →
    mmul (hMat s.codeM.toNat) c = Mat.zero s.codeM.toNat 1 ∧ mmul (rMat s.codeM.toNat) c = w ∧
    ∀ u, 1 ≤ u → u ≤ s.codeK → c.get (dataPos s.codeM.toNat u - 1) 0 = w.get (u - 1) 0

/-! ### The channel simulator (`43_channel.md`) -/

/-- R170: INJECT flips exactly the element at index pos - 1 of any n×1 vector. -/
def Obligations.InjectFlipsOnePosition : Prop :=
  ∀ (s : State) (rd rs1 : RegIdx) (pos : BitVec 16) (c : Mat), s.codeM ≠ 0 → 3 ≤ rd.val → s.reg rs1 = .full c →
    1 ≤ pos.toNat → pos.toNat ≤ s.codeN → c.rows = s.codeN → c.cols = 1 →
    ∃ t d, exec (.inject rd rs1 pos) s = .next t ∧ Completed s t [rd] 0 ∧ t.reg rd = .full d ∧
      d.rows = s.codeN ∧ d.cols = 1 ∧
      ∀ l < s.codeN, d.get l 0 = (c.get l 0 ^^ decide (l + 1 = pos.toNat))

/-- R173: the syndrome of a codeword with position p flipped reads as p. -/
def Obligations.InjectedSyndromeIsThePosition : Prop :=
  ∀ (m p : Nat) (c : Mat), c.rows = codeLen m → c.cols = 1 → mmul (hMat m) c = Mat.zero m 1 → 1 ≤ p → p ≤ codeLen m →
    toInt (mmul (hMat m) (madd c (unitVec (codeLen m) p))) = p

/-! ### The syndrome decoder (`44_decoder.md`) -/

/-- R180 to R184: DECODE of any n×1 vector: the syndrome integer from the bits of H times the vector, the flip of that
position if it is not 0, the extraction; both destinations written, the integer in DATA_OUT. -/
def Obligations.DecodeTakesItsFiveSteps : Prop :=
  ∀ (s : State) (rd rc rs1 : RegIdx) (x : Mat), s.Inv → s.codeM ≠ 0 → rd ≠ rc → 3 ≤ rd.val → 3 ≤ rc.val →
    s.reg rs1 = .full x → x.rows = s.codeN → x.cols = 1 →
    ∃ t idx y w, exec (.decode rd rc rs1) s = .next t ∧ Completed s t [rd, rc] (BitVec.ofNat 256 idx) ∧
      t.reg rd = .full w ∧ t.reg rc = .full y ∧ idx ≤ s.codeN ∧
      (∀ i, i < s.codeM.toNat → idx.testBit i = xorBelow s.codeN fun l => (l + 1).testBit i && x.get l 0) ∧
      y.rows = s.codeN ∧ y.cols = 1 ∧ (∀ l < s.codeN, y.get l 0 = (x.get l 0 ^^ decide (l + 1 = idx))) ∧
      w.rows = s.codeK ∧ w.cols = 1 ∧
      ∀ u, 1 ≤ u → u ≤ s.codeK → w.get (u - 1) 0 = y.get (dataPos s.codeM.toNat u - 1) 0

/-- R185: encode a word, flip any one position, decode: the word comes back, the corrected vector is the codeword and
DATA_OUT is the position. -/
def Obligations.SingleErrorIsCorrected : Prop :=
  ∀ (s : State) (w c e x y : RegIdx) (pos : BitVec 16) (word : Mat), s.Inv → s.codeM ≠ 0 →
    3 ≤ c.val → 3 ≤ e.val → 3 ≤ x.val → 3 ≤ y.val → x ≠ y →
    s.reg w = .full word → word.rows = s.codeK → word.cols = 1 → 1 ≤ pos.toNat → pos.toNat ≤ s.codeN →
    ∃ t1 t2 t3, exec (.encode c w) s = .next t1 ∧ exec (.inject e c pos) t1 = .next t2 ∧
      exec (.decode x y e) t2 = .next t3 ∧ t3.rsp = some ⟨.ok, BitVec.ofNat 256 pos.toNat⟩ ∧
      t3.reg x = s.reg w ∧ t3.reg y = t1.reg c ∧ t3.stickyErr = s.stickyErr

/-- R186: DECODE of a codeword gives syndrome 0, leaves it unchanged and extracts R·c; after ENCODE that is the word. -/
def Obligations.CodewordDecodesUnchanged : Prop :=
  (∀ (s : State) (x y r : RegIdx) (c : Mat), s.Inv → s.codeM ≠ 0 → 3 ≤ x.val → 3 ≤ y.val → x ≠ y →
    s.reg r = .full c → c.rows = s.codeN → c.cols = 1 →
    mmul (hMat s.codeM.toNat) c = Mat.zero s.codeM.toNat 1 →
    ∃ t, exec (.decode x y r) s = .next t ∧ t.rsp = some ⟨.ok, 0⟩ ∧ t.reg y = .full c ∧
      t.reg x = .full (mmul (rMat s.codeM.toNat) c) ∧ t.stickyErr = s.stickyErr) ∧
  (∀ (s : State) (w c x y : RegIdx) (word : Mat), s.Inv → s.codeM ≠ 0 → 3 ≤ c.val → 3 ≤ x.val → 3 ≤ y.val → x ≠ y →
    s.reg w = .full word → word.rows = s.codeK → word.cols = 1 →
    ∃ t1 t2, exec (.encode c w) s = .next t1 ∧ exec (.decode x y c) t1 = .next t2 ∧ t2.rsp = some ⟨.ok, 0⟩ ∧
      t2.reg x = s.reg w ∧ t2.reg y = t1.reg c)

/-- R187, R190, R266: a codeword with two positions flipped is decoded with result OK to a different codeword, with a
nonzero syndrome that is neither position: a double error is never corrected and never reported. -/
def Obligations.DoubleErrorIsMiscorrectedSilently : Prop :=
  ∀ (s : State) (rd rc rs1 : RegIdx) (c : Mat) (a b : Nat), s.Inv → s.codeM ≠ 0 → 3 ≤ rd.val → 3 ≤ rc.val → rd ≠ rc →
    c.rows = s.codeN → c.cols = 1 → mmul (hMat s.codeM.toNat) c = Mat.zero s.codeM.toNat 1 →
    1 ≤ a → a ≤ s.codeN → 1 ≤ b → b ≤ s.codeN → a ≠ b →
    s.reg rs1 = .full (madd (madd c (unitVec s.codeN a)) (unitVec s.codeN b)) →
    ∃ t y, exec (.decode rd rc rs1) s = .next t ∧ t.rsp = some ⟨.ok, BitVec.ofNat 256 (a ^^^ b)⟩ ∧
      a ^^^ b ≠ 0 ∧ a ^^^ b ≠ a ∧ a ^^^ b ≠ b ∧ t.reg rc = .full y ∧
      y = madd (madd (madd c (unitVec s.codeN a)) (unitVec s.codeN b)) (unitVec s.codeN (a ^^^ b)) ∧
      mmul (hMat s.codeM.toNat) y = Mat.zero s.codeM.toNat 1 ∧ y ≠ c ∧ t.stickyErr = s.stickyErr

/-- R188: a flip at a parity position leaves the extracted word as it was. -/
def Obligations.ParityPositionFlipKeepsTheWord : Prop :=
  ∀ (m i : Nat) (x : Mat), i < m → x.rows = codeLen m → x.cols = 1 →
    mmul (rMat m) (correct (codeLen m) x (2 ^ i)) = mmul (rMat m) x

/-! ### Idempotency (`20_memory.md` R58) -/

/-- R58 (c): repeating MDIM, MWROW, MWCOL or CONSTRUCT leaves the same state, whether it failed or not. -/
def Obligations.WritingCommandsAreIdempotent : Prop :=
  ∀ (i : Instr) (s t : State), i.op = .mdim ∨ i.op = .mwrow ∨ i.op = .mwcol ∨ i.op = .construct →
    exec i s = .next t → exec i t = .next t

/-- R58 (c'): repeating MADD, MMUL, ENCODE, INJECT or DECODE leaves the same state when no source is a destination. -/
def Obligations.IdempotentWithoutSharedRegisters : Prop :=
  ∀ (i : Instr) (s t : State),
    i.op = .madd ∨ i.op = .mmul ∨ i.op = .encode ∨ i.op = .inject ∨ i.op = .decode →
    (∀ r ∈ i.sources, r ∉ i.dests) → exec i s = .next t → exec i t = .next t

/-- R58 (d): a second identical INJECT in place flips the bit back. -/
def Obligations.InjectInPlaceTwiceRestores : Prop :=
  ∀ (s t : State) (r : RegIdx) (pos : BitVec 16) (v : DataWord), exec (.inject r r pos) s = .next t →
    t.rsp = some ⟨.ok, v⟩ → ∃ u, exec (.inject r r pos) t = .next u ∧ Completed s u [] 0
end

