-- ==== Sys2Proof/Laws/Matrix.lean ====
section
/-! SUPPORT. Matrix values through their elements: what building one gives, and when two are equal. Later proofs use these
and never unfold the storage of elements. -/

namespace Sys2Proof.Machine

/-! ### Bits and integers -/

theorem packBits_lt (bs : List Bool) : packBits bs < 2 ^ bs.length := by
  induction bs with
  | nil => simp [packBits]
  | cons b bs ih =>
    simp only [packBits, List.length_cons, Nat.pow_succ]
    have : b.toNat ≤ 1 := Bool.toNat_le b
    omega

/-- Bit i of the packed integer is element i (`20_memory.md` R53). -/
theorem testBit_packBits (bs : List Bool) (i : Nat) : (packBits bs).testBit i = bs.getD i false := by
  induction bs generalizing i with
  | nil => simp [packBits]
  | cons b bs ih =>
    have hdiv : (b.toNat + 2 * packBits bs) / 2 = packBits bs := by
      have : b.toNat ≤ 1 := Bool.toNat_le b
      omega
    cases i with
    | zero =>
      cases b <;> simp [packBits, Nat.testBit_zero]
    | succ i =>
      rw [packBits, Nat.testBit_succ, hdiv, ih]
      simp

theorem packRows_lt {c : Nat} {rows : List (List Bool)} (hc : ∀ row ∈ rows, row.length = c) :
    packRows c rows < 2 ^ (rows.length * c) := by
  induction rows with
  | nil => simp [packRows]
  | cons row rows ih =>
    have hrow : packBits row < 2 ^ c := by
      have := packBits_lt row
      rwa [hc row (by simp)] at this
    have ih' := ih fun r hr => hc r (by simp [hr])
    have : (rows.length + 1) * c = c + rows.length * c := by ring
    rw [packRows, List.length_cons, this, Nat.pow_add]
    calc packBits row + 2 ^ c * packRows c rows
        < 2 ^ c + 2 ^ c * packRows c rows := by omega
      _ = 2 ^ c * (packRows c rows + 1) := by ring
      _ ≤ 2 ^ c * 2 ^ (rows.length * c) := Nat.mul_le_mul_left _ ih'

theorem testBit_packRows {c : Nat} {rows : List (List Bool)} (hc : ∀ row ∈ rows, row.length = c)
    {i j : Nat} (hj : j < c) :
    (packRows c rows).testBit (i * c + j) = (rows.getD i []).getD j false := by
  induction rows generalizing i with
  | nil => simp [packRows]
  | cons row rows ih =>
    have hrow : packBits row < 2 ^ c := by
      have := packBits_lt row
      rwa [hc row (by simp)] at this
    have hcomm : packBits row + 2 ^ c * packRows c rows = 2 ^ c * packRows c rows + packBits row := by ring
    rw [packRows, hcomm, Nat.testBit_two_pow_mul_add _ hrow]
    cases i with
    | zero => simp [hj, testBit_packBits]
    | succ i =>
      have h1 : ¬ ((i + 1) * c + j < c) := by
        rw [Nat.add_mul]; omega
      have h2 : (i + 1) * c + j - c = i * c + j := by
        rw [Nat.add_mul]; omega
      rw [if_neg h1, h2, ih fun r hr => hc r (by simp [hr])]
      simp

/-! ### Elements -/

@[simp] theorem Mat.ofRows_rows (r c : Nat) (rows : List (List Bool)) : (Mat.ofRows r c rows).rows = r := rfl
@[simp] theorem Mat.ofRows_cols (r c : Nat) (rows : List (List Bool)) : (Mat.ofRows r c rows).cols = c := rfl
@[simp] theorem Mat.ofFn_rows (r c : Nat) (f : Nat → Nat → Bool) : (Mat.ofFn r c f).rows = r := rfl
@[simp] theorem Mat.ofFn_cols (r c : Nat) (f : Nat → Nat → Bool) : (Mat.ofFn r c f).cols = c := rfl

/-- There is no element outside the matrix. -/
theorem Mat.get_of_rows_le (A : Mat) {i : Nat} (j : Nat) (hi : A.rows ≤ i) : A.get i j = false := by
  unfold Mat.get
  rw [BitVec.getLsbD_of_ge _ _ (by
    calc A.rows * A.cols ≤ i * A.cols := Nat.mul_le_mul_right _ hi
      _ ≤ i * A.cols + j := Nat.le_add_right _ _)]
  simp

/-- There is no element outside the matrix. -/
theorem Mat.get_of_cols_le (A : Mat) (i : Nat) {j : Nat} (hj : A.cols ≤ j) : A.get i j = false := by
  simp [Mat.get, Nat.not_lt.mpr hj]

/-- The elements of a matrix given by its rows. -/
theorem Mat.get_ofRows {r c : Nat} {rows : List (List Bool)} (hr : rows.length = r)
    (hc : ∀ row ∈ rows, row.length = c) (i j : Nat) :
    (Mat.ofRows r c rows).get i j = (rows.getD i []).getD j false := by
  by_cases hj : j < c
  · simp only [Mat.get, Mat.ofRows_cols, hj, decide_true, Bool.true_and]
    subst hr
    show (BitVec.ofNat (rows.length * c) (packRows c rows)).getLsbD (i * c + j) = _
    rw [BitVec.getLsbD_ofNat, testBit_packRows hc hj]
    by_cases hi : i < rows.length
    · have : i * c + j < rows.length * c := by
        calc i * c + j < i * c + c := by omega
          _ = (i + 1) * c := by ring
          _ ≤ rows.length * c := Nat.mul_le_mul_right _ hi
      simp [this]
    · simp [List.getD_eq_getElem?_getD, List.getElem?_eq_none (Nat.le_of_not_lt hi)]
  · rw [Mat.get_of_cols_le _ _ (by simpa using hj)]
    by_cases hi : i < rows.length
    · have hlen : (rows.getD i []).length = c := by
        rw [List.getD_eq_getElem _ _ hi]
        exact hc _ (List.getElem_mem hi)
      rw [List.getD_eq_default _ _ (by omega)]
    · simp [List.getD_eq_getElem?_getD, List.getElem?_eq_none (Nat.le_of_not_lt hi)]

/-- The elements of `Mat(r, c, f)`, everywhere. -/
theorem Mat.get_ofFn (r c : Nat) (f : Nat → Nat → Bool) (i j : Nat) :
    (Mat.ofFn r c f).get i j = (decide (i < r) && decide (j < c) && f i j) := by
  rw [Mat.ofFn, Mat.get_ofRows (by simp) (by simp +contextual)]
  by_cases hi : i < r <;> by_cases hj : j < c <;>
    simp [List.getD_eq_getElem?_getD, hi, hj]

theorem Mat.get_ofFn_of_lt {r c : Nat} (f : Nat → Nat → Bool) {i j : Nat} (hi : i < r) (hj : j < c) :
    (Mat.ofFn r c f).get i j = f i j := by
  simp [Mat.get_ofFn, hi, hj]

/-- Two matrices are equal when their rows, their columns and every element are equal (`00_scope.md` R11). -/
theorem Mat.ext_get {A B : Mat} (hr : A.rows = B.rows) (hc : A.cols = B.cols)
    (h : ∀ i < A.rows, ∀ j < A.cols, A.get i j = B.get i j) : A = B := by
  obtain ⟨r, c, a⟩ := A
  obtain ⟨r', c', b⟩ := B
  simp only at hr hc
  subst hr
  subst hc
  have hab : a = b := by
    apply BitVec.eq_of_getLsbD_eq
    intro p hp
    have hcpos : 0 < c := by
      rcases Nat.eq_zero_or_pos c with rfl | hpos
      · simp at hp
      · exact hpos
    have hlt : p % c < c := Nat.mod_lt _ hcpos
    have hdiv : p / c < r := Nat.div_lt_of_lt_mul (by rwa [Nat.mul_comm])
    have hp' : p / c * c + p % c = p := by
      rw [Nat.mul_comm]; exact Nat.div_add_mod p c
    have := h (p / c) hdiv (p % c) hlt
    simpa only [Mat.get, hlt, decide_true, Bool.true_and, hp'] using this
  rw [hab]

/-! ### XOR over a range -/

@[simp] theorem xorBelow_zero (f : Nat → Bool) : xorBelow 0 f = false := rfl
theorem xorBelow_succ (b : Nat) (f : Nat → Bool) : xorBelow (b + 1) f = (xorBelow b f ^^ f b) := rfl

theorem xorBelow_congr {b : Nat} {f g : Nat → Bool} (h : ∀ l < b, f l = g l) : xorBelow b f = xorBelow b g := by
  induction b with
  | zero => rfl
  | succ b ih => rw [xorBelow_succ, xorBelow_succ, ih fun l hl => h l (by omega), h b (by omega)]

@[simp] theorem xorBelow_false (b : Nat) : xorBelow b (fun _ => false) = false := by
  induction b with
  | zero => rfl
  | succ b ih => simp [xorBelow_succ, ih]

theorem xorBelow_xor (b : Nat) (f g : Nat → Bool) :
    xorBelow b (fun l => f l ^^ g l) = (xorBelow b f ^^ xorBelow b g) := by
  induction b with
  | zero => rfl
  | succ b ih =>
    rw [xorBelow_succ, xorBelow_succ, xorBelow_succ, ih]
    cases xorBelow b f <;> cases xorBelow b g <;> cases f b <;> cases g b <;> rfl

theorem xorBelow_and_left (b : Nat) (x : Bool) (f : Nat → Bool) :
    xorBelow b (fun l => x && f l) = (x && xorBelow b f) := by
  cases x <;> simp

theorem xorBelow_and_right (b : Nat) (x : Bool) (f : Nat → Bool) :
    xorBelow b (fun l => f l && x) = (xorBelow b f && x) := by
  cases x <;> simp

/-- Two accumulations may be exchanged: the order of accumulation never changes a result (`40_gf2_alu.md` R101). -/
theorem xorBelow_comm (a b : Nat) (f : Nat → Nat → Bool) :
    xorBelow a (fun i => xorBelow b fun j => f i j) = xorBelow b (fun j => xorBelow a fun i => f i j) := by
  induction a with
  | zero => simp
  | succ a ih => simp only [xorBelow_succ, ih, xorBelow_xor]

/-- An accumulation with one term that may be 1. -/
theorem xorBelow_single {b p : Nat} (hp : p < b) {f : Nat → Bool} (h : ∀ l < b, l ≠ p → f l = false) :
    xorBelow b f = f p := by
  induction b with
  | zero => omega
  | succ b ih =>
    rw [xorBelow_succ]
    by_cases hpb : p = b
    · subst hpb
      rw [xorBelow_congr fun l hl => h l (by omega) (by omega)]
      simp
    · rw [h b (by omega) (by omega), ih (by omega) fun l hl => h l (by omega)]
      simp

/-! ### The operations, element by element -/

@[simp] theorem madd_rows (A B : Mat) : (madd A B).rows = A.rows := rfl
@[simp] theorem madd_cols (A B : Mat) : (madd A B).cols = A.cols := rfl
@[simp] theorem mmul_rows (A B : Mat) : (mmul A B).rows = A.rows := rfl
@[simp] theorem mmul_cols (A B : Mat) : (mmul A B).cols = B.cols := rfl
@[simp] theorem unitVec_rows (L p : Nat) : (unitVec L p).rows = L := rfl
@[simp] theorem unitVec_cols (L p : Nat) : (unitVec L p).cols = 1 := rfl
@[simp] theorem Mat.zero_rows (r c : Nat) : (Mat.zero r c).rows = r := rfl
@[simp] theorem Mat.zero_cols (r c : Nat) : (Mat.zero r c).cols = c := rfl
@[simp] theorem Mat.identity_rows (r : Nat) : (Mat.identity r).rows = r := rfl
@[simp] theorem Mat.identity_cols (r : Nat) : (Mat.identity r).cols = r := rfl
@[simp] theorem Mat.setRow_rows (A : Mat) (i : Nat) (d : DataWord) : (A.setRow i d).rows = A.rows := rfl
@[simp] theorem Mat.setRow_cols (A : Mat) (i : Nat) (d : DataWord) : (A.setRow i d).cols = A.cols := rfl
@[simp] theorem Mat.setCol_rows (A : Mat) (j : Nat) (d : DataWord) : (A.setCol j d).rows = A.rows := rfl
@[simp] theorem Mat.setCol_cols (A : Mat) (j : Nat) (d : DataWord) : (A.setCol j d).cols = A.cols := rfl

theorem get_madd {A B : Mat} {i j : Nat} (hi : i < A.rows) (hj : j < A.cols) :
    (madd A B).get i j = (A.get i j ^^ B.get i j) := Mat.get_ofFn_of_lt _ hi hj

theorem get_mmul {A B : Mat} {i j : Nat} (hi : i < A.rows) (hj : j < B.cols) :
    (mmul A B).get i j = xorBelow A.cols fun l => A.get i l && B.get l j := Mat.get_ofFn_of_lt _ hi hj

@[simp] theorem Mat.get_zero (r c i j : Nat) : (Mat.zero r c).get i j = false := by
  simp [Mat.zero, Mat.get_ofFn]

theorem get_unitVec {L p i : Nat} (hi : i < L) : (unitVec L p).get i 0 = (i + 1 == p) :=
  Mat.get_ofFn_of_lt _ hi Nat.one_pos

theorem Mat.get_identity {r i j : Nat} (hi : i < r) (hj : j < r) : (Mat.identity r).get i j = (i == j) :=
  Mat.get_ofFn_of_lt _ hi hj

theorem Mat.get_setRow {A : Mat} {i j : Nat} (row : Nat) (d : DataWord) (hi : i < A.rows) (hj : j < A.cols) :
    (A.setRow row d).get i j = if i = row then d.getLsbD j else A.get i j := Mat.get_ofFn_of_lt _ hi hj

theorem Mat.get_setCol {A : Mat} {i j : Nat} (col : Nat) (d : DataWord) (hi : i < A.rows) (hj : j < A.cols) :
    (A.setCol col d).get i j = if j = col then d.getLsbD i else A.get i j := Mat.get_ofFn_of_lt _ hi hj

/-! ### Words of rows and columns -/

theorem getLsbD_rowWord (A : Mat) (i : Nat) {j : Nat} (hj : j < 256) : (rowWord A i).getLsbD j = A.get i j := by
  rw [rowWord, BitVec.getLsbD_ofNat, testBit_packBits]
  by_cases h : j < A.cols
  · simp [hj, h, List.getD_eq_getElem?_getD]
  · simp [Mat.get_of_cols_le A i (Nat.le_of_not_lt h), List.getD_eq_getElem?_getD, h]

theorem getLsbD_colWord (A : Mat) (j : Nat) {i : Nat} (hi : i < 256) : (colWord A j).getLsbD i = A.get i j := by
  rw [colWord, BitVec.getLsbD_ofNat, testBit_packBits]
  by_cases h : i < A.rows
  · simp [hi, h, List.getD_eq_getElem?_getD]
  · simp [Mat.get_of_rows_le A j (Nat.le_of_not_lt h), List.getD_eq_getElem?_getD, h]

theorem toInt_lt (s : Mat) : toInt s < 2 ^ s.rows := by
  have := packBits_lt ((List.range s.rows).map fun i => s.get i 0)
  simpa [toInt] using this

/-- Bit i of `to_int(s)` is element i of s (`00_scope.md` R13). -/
theorem testBit_toInt (s : Mat) (i : Nat) : (toInt s).testBit i = s.get i 0 := by
  rw [toInt, testBit_packBits]
  by_cases h : i < s.rows
  · simp [h, List.getD_eq_getElem?_getD]
  · simp [Mat.get_of_rows_le s 0 (Nat.le_of_not_lt h), List.getD_eq_getElem?_getD, h]

end Sys2Proof.Machine
end

