-- ==== Sys2Proof/Laws/Code.lean ====
section
/-! SUPPORT. The positions of a code and the elements of G, H and R (`41_code_construction.md` R131 to R135). -/

namespace Sys2Proof.Machine

/-! ### Sizes -/

theorem codeLen_add_one (m : Nat) : codeLen m + 1 = 2 ^ m := by
  have : 0 < 2 ^ m := Nat.two_pow_pos m
  unfold codeLen; omega

theorem le_codeLen (m : Nat) : m ≤ codeLen m := by
  have := codeLen_add_one m
  have := Nat.lt_two_pow_self (n := m)
  omega

theorem wordLen_add (m : Nat) : wordLen m + m = codeLen m := Nat.sub_add_cancel (le_codeLen m)

theorem codeLen_mono {m M : Nat} (h : m ≤ M) : codeLen m ≤ codeLen M :=
  Nat.sub_le_sub_right (Nat.pow_le_pow_right (by omega) h) 1

theorem wordLen_pos {m : Nat} (h : 2 ≤ m) : 0 < wordLen m := by
  induction m, h using Nat.le_induction with
  | base => decide
  | succ m hm ih =>
    have h1 := codeLen_add_one m
    have h2 := codeLen_add_one (m + 1)
    have h3 := wordLen_add m
    have h4 := wordLen_add (m + 1)
    rw [Nat.pow_succ] at h2
    omega

/-! ### Positions -/

@[simp] theorem positions_length (m : Nat) : (positions m).length = codeLen m := by simp [positions]

theorem positions_getElem {m i : Nat} (h : i < (positions m).length) : (positions m)[i] = i + 1 := by
  simp [positions]

theorem positions_getElem? {m i : Nat} (h : i < codeLen m) : (positions m)[i]? = some (i + 1) := by
  rw [List.getElem?_eq_getElem (by simpa using h), positions_getElem]

theorem mem_positions {m j : Nat} : j ∈ positions m ↔ 1 ≤ j ∧ j ≤ codeLen m := by
  simp only [positions, List.mem_map, List.mem_range]
  constructor
  · rintro ⟨i, hi, rfl⟩; omega
  · rintro ⟨h1, h2⟩; exact ⟨j - 1, by omega, by omega⟩

theorem positions_sorted (m : Nat) : (positions m).Pairwise (· < ·) := by
  rw [positions, List.pairwise_map]
  exact List.pairwise_lt_range.imp (by intro a b h; omega)

/-- A parity position is a power of two (R131). -/
theorem isParityPos_iff {j : Nat} : isParityPos j = true ↔ ∃ i, j = 2 ^ i := by
  simp only [isParityPos, beq_iff_eq]
  constructor
  · intro h; exact ⟨_, h.symm⟩
  · rintro ⟨i, rfl⟩; simp [Nat.log2_two_pow]

@[simp] theorem isParityPos_two_pow (i : Nat) : isParityPos (2 ^ i) = true := isParityPos_iff.mpr ⟨i, rfl⟩

theorem mem_dataPositions {m d : Nat} :
    d ∈ dataPositions m ↔ (1 ≤ d ∧ d ≤ codeLen m) ∧ isParityPos d = false := by
  simp [dataPositions, mem_positions]

theorem dataPositions_sorted (m : Nat) : (dataPositions m).Pairwise (· < ·) :=
  (positions_sorted m).filter _

theorem dataPositions_nodup (m : Nat) : (dataPositions m).Nodup :=
  (dataPositions_sorted m).imp fun h => Nat.ne_of_lt h

/-- There are exactly m parity positions (R131). -/
theorem parityPositions_length (m : Nat) : ((positions m).filter isParityPos).length = m := by
  have hnodup : ((positions m).filter isParityPos).Nodup :=
    ((positions_sorted m).imp fun h => Nat.ne_of_lt h).filter _
  have hinj : ((List.range m).map (2 ^ ·)).Nodup :=
    List.nodup_range.map fun a b h => Nat.pow_right_injective (le_refl 2) h
  have hperm : ((positions m).filter isParityPos).Perm ((List.range m).map (2 ^ ·)) := by
    rw [List.perm_ext_iff_of_nodup hnodup hinj]
    intro j
    simp only [List.mem_filter, mem_positions, isParityPos_iff, List.mem_map, List.mem_range]
    have hn := codeLen_add_one m
    constructor
    · rintro ⟨⟨h1, h2⟩, i, rfl⟩
      exact ⟨i, (Nat.pow_lt_pow_iff_right (by omega : 1 < 2)).mp (by omega), rfl⟩
    · rintro ⟨i, hi, rfl⟩
      have := Nat.two_pow_pos i
      have : 2 ^ i < 2 ^ m := Nat.pow_lt_pow_right (by omega) hi
      exact ⟨⟨by omega, by omega⟩, i, rfl⟩
  simpa using hperm.length_eq

/-- There are `k = n - m` data positions (R132). -/
@[simp] theorem dataPositions_length (m : Nat) : (dataPositions m).length = wordLen m := by
  have hsplit := List.length_eq_length_filter_add (l := positions m) isParityPos
  rw [parityPositions_length, positions_length] at hsplit
  have := wordLen_add m
  have hd : (dataPositions m).length = ((positions m).filter fun j => !isParityPos j).length := rfl
  omega

theorem dataPos_succ {m t : Nat} (ht : t < wordLen m) :
    dataPos m (t + 1) = (dataPositions m)[t]'(by simpa using ht) := by
  rw [dataPos, Nat.add_sub_cancel, List.getD_eq_getElem]

theorem dataPositions_getElem? {m t : Nat} (ht : t < wordLen m) :
    (dataPositions m)[t]? = some (dataPos m (t + 1)) := by
  rw [List.getElem?_eq_getElem (by simpa using ht), dataPos_succ ht]

theorem dataPos_mem {m t : Nat} (h1 : 1 ≤ t) (hk : t ≤ wordLen m) : dataPos m t ∈ dataPositions m := by
  obtain ⟨u, rfl⟩ : ∃ u, t = u + 1 := ⟨t - 1, by omega⟩
  rw [dataPos_succ (by omega)]
  exact List.getElem_mem _

/-- Two data positions are equal exactly when their ranks are (R132). -/
theorem dataPos_inj {m t u : Nat} (ht1 : 1 ≤ t) (htk : t ≤ wordLen m) (hu1 : 1 ≤ u) (huk : u ≤ wordLen m) :
    dataPos m t = dataPos m u ↔ t = u := by
  obtain ⟨t, rfl⟩ : ∃ t', t = t' + 1 := ⟨t - 1, by omega⟩
  obtain ⟨u, rfl⟩ : ∃ u', u = u' + 1 := ⟨u - 1, by omega⟩
  rw [dataPos_succ (by omega), dataPos_succ (by omega), (dataPositions_nodup m).getElem_inj_iff]
  omega

/-- Every data position has a rank (R132). -/
theorem exists_dataPos_eq {m d : Nat} (h : d ∈ dataPositions m) : ∃ t, 1 ≤ t ∧ t ≤ wordLen m ∧ dataPos m t = d := by
  obtain ⟨t, ht, rfl⟩ := List.getElem_of_mem h
  rw [dataPositions_length] at ht
  exact ⟨t + 1, by omega, by omega, dataPos_succ ht⟩

/-! ### Sizes of the matrices -/

@[simp] theorem gMat_rows (m : Nat) : (gMat m).rows = codeLen m := rfl
@[simp] theorem gMat_cols (m : Nat) : (gMat m).cols = wordLen m := rfl
@[simp] theorem hMat_rows (m : Nat) : (hMat m).rows = m := rfl
@[simp] theorem hMat_cols (m : Nat) : (hMat m).cols = codeLen m := rfl
@[simp] theorem rMat_rows (m : Nat) : (rMat m).rows = wordLen m := rfl
@[simp] theorem rMat_cols (m : Nat) : (rMat m).cols = codeLen m := rfl

/-! ### Elements of the matrices, rows and columns 0-indexed -/

theorem get_hMat {m i j : Nat} (hi : i < m) (hj : j < codeLen m) : (hMat m).get i j = (j + 1).testBit i := by
  rw [hMat, Mat.get_ofRows (by simp) (by simp)]
  simp [List.getD_eq_getElem?_getD, hi, positions_getElem? hj, hBit]

theorem get_gMat {m i t : Nat} (hi : i < codeLen m) (ht : t < wordLen m) :
    (gMat m).get i t = gBit (i + 1) (dataPos m (t + 1)) := by
  rw [gMat, Mat.get_ofRows (by simp) (by simp)]
  simp [List.getD_eq_getElem?_getD, positions_getElem? hi, dataPositions_getElem? ht]

theorem get_rMat {m t j : Nat} (ht : t < wordLen m) (hj : j < codeLen m) :
    (rMat m).get t j = (j + 1 == dataPos m (t + 1)) := by
  rw [rMat, Mat.get_ofRows (by simp) (by simp)]
  simp [List.getD_eq_getElem?_getD, positions_getElem? hj, dataPositions_getElem? ht, rBit]

/-- "Bit p set" is the bit of weight p (`90_conflicts.md` C4). -/
theorem and_two_pow_ne_zero (d i : Nat) : (d &&& 2 ^ i != 0) = d.testBit i := by
  rw [Nat.and_two_pow]
  cases d.testBit i <;> simp

end Sys2Proof.Machine
end

