-- ==== Sys2Proof/Laws/Decode.lean ====
section
/-! SUPPORT. Words and their fields: a word is its fields, and an encoded word has the fields it was given
(`30_encoding.md` R70, R72, R81). -/

namespace Sys2Proof

/-! ### Bits of fields -/

theorem getLsbD_fieldOp (w : CmdWord) (i : Nat) : (fieldOp w).getLsbD i = (decide (i < 4) && w.getLsbD i) := by
  simp [fieldOp, BitVec.getLsbD_extractLsb']

theorem getLsbD_fieldImm16 (w : CmdWord) (i : Nat) :
    (fieldImm16 w).getLsbD i = (decide (i < 16) && w.getLsbD (16 + i)) := by
  simp [fieldImm16, BitVec.getLsbD_extractLsb']

theorem getLsbD_fieldImmLo (w : CmdWord) (i : Nat) :
    (fieldImmLo w).getLsbD i = (decide (i < 8) && w.getLsbD (16 + i)) := by
  simp [fieldImmLo, BitVec.getLsbD_extractLsb']

theorem getLsbD_fieldImmHi (w : CmdWord) (i : Nat) :
    (fieldImmHi w).getLsbD i = (decide (i < 8) && w.getLsbD (24 + i)) := by
  simp [fieldImmHi, BitVec.getLsbD_extractLsb']

/-- imm16 is `{imm_hi, imm_lo}` (R70). -/
theorem fieldImm16_eq (w : CmdWord) : fieldImm16 w = imm16Of (fieldImmLo w) (fieldImmHi w) := by
  apply BitVec.eq_of_getLsbD_eq
  intro i hi
  simp only [imm16Of, BitVec.getLsbD_or, BitVec.getLsbD_setWidth, BitVec.getLsbD_shiftLeft, getLsbD_fieldImm16,
    getLsbD_fieldImmLo, getLsbD_fieldImmHi]
  rcases Nat.lt_or_ge i 8 with h | h
  · simp [hi, h]
  · have h1 : i - 8 < 8 := by omega
    have h2 : 24 + (i - 8) = 16 + i := by omega
    have h3 : ¬ i < 8 := by omega
    have h4 : i - 8 < 16 := by omega
    simp [hi, h1, h2, h3, h4]

/-! ### Bits of an encoded word -/

theorem testBit_regIdx (r : RegIdx) {i : Nat} (hi : 4 ≤ i) : r.val.testBit i = false := by
  apply Nat.testBit_lt_two_pow
  calc r.val < 2 ^ 4 := r.isLt
    _ ≤ 2 ^ i := Nat.pow_le_pow_right (by omega) hi

/-- Every bit of an encoded word. -/
theorem getLsbD_encodeWord (op : BitVec 4) (rd rs1 rs2 : RegIdx) (imm : BitVec 16) {i : Nat} (hi : i < 32) :
    (encodeWord op rd rs1 rs2 imm).getLsbD i =
      if i < 4 then op.getLsbD i else if i < 8 then rd.val.testBit (i - 4)
      else if i < 12 then rs1.val.testBit (i - 8) else if i < 16 then rs2.val.testBit (i - 12)
      else imm.getLsbD (i - 16) := by
  simp only [encodeWord, BitVec.getLsbD_or, BitVec.getLsbD_setWidth, BitVec.getLsbD_shiftLeft, BitVec.getLsbD_ofNat, hi,
    decide_true, Bool.true_and]
  have hop : ∀ {k}, 4 ≤ k → op.getLsbD k = false := fun h => BitVec.getLsbD_of_ge _ _ h
  by_cases h1 : i < 4
  · simp [h1, show i < 8 by omega, show i < 12 by omega, show i < 16 by omega]
  by_cases h2 : i < 8
  · simp [h1, h2, hop (show 4 ≤ i by omega), show i < 12 by omega, show i < 16 by omega, show i - 4 < 32 by omega]
  by_cases h3 : i < 12
  · simp [h1, h2, h3, hop (show 4 ≤ i by omega), show i < 16 by omega, show i - 8 < 32 by omega,
      testBit_regIdx rd (show 4 ≤ i - 4 by omega)]
  by_cases h4 : i < 16
  · simp [h1, h2, h3, h4, hop (show 4 ≤ i by omega), show i - 12 < 32 by omega,
      testBit_regIdx rd (show 4 ≤ i - 4 by omega), testBit_regIdx rs1 (show 4 ≤ i - 8 by omega)]
  · simp [h1, h2, h3, h4, hop (show 4 ≤ i by omega), show i - 16 < 32 by omega,
      testBit_regIdx rd (show 4 ≤ i - 4 by omega), testBit_regIdx rs1 (show 4 ≤ i - 8 by omega),
      testBit_regIdx rs2 (show 4 ≤ i - 12 by omega)]

/-! ### An encoded word has the fields it was given -/

section fields
variable (op : BitVec 4) (rd rs1 rs2 : RegIdx) (imm : BitVec 16)

@[simp] theorem fieldOp_encodeWord : fieldOp (encodeWord op rd rs1 rs2 imm) = op := by
  apply BitVec.eq_of_getLsbD_eq
  intro i hi
  rw [getLsbD_fieldOp, getLsbD_encodeWord _ _ _ _ _ (by omega)]
  simp [hi]

/-- A register field read back. -/
theorem regField_eq (w : CmdWord) (lo : Nat) (r : RegIdx) (h : ∀ i < 4, w.getLsbD (lo + i) = r.val.testBit i) :
    (w.extractLsb' lo 4).toFin = r := by
  have : w.extractLsb' lo 4 = BitVec.ofFin r := by
    apply BitVec.eq_of_getLsbD_eq
    intro i hi
    rw [BitVec.getLsbD_extractLsb']
    simp only [hi, decide_true, Bool.true_and, h i hi]
    rfl
  rw [this]

@[simp] theorem fieldRd_encodeWord : fieldRd (encodeWord op rd rs1 rs2 imm) = rd := by
  refine regField_eq _ _ _ fun i hi => ?_
  rw [getLsbD_encodeWord _ _ _ _ _ (by omega)]
  simp [show ¬ 4 + i < 4 by omega, show 4 + i < 8 by omega]

@[simp] theorem fieldRs1_encodeWord : fieldRs1 (encodeWord op rd rs1 rs2 imm) = rs1 := by
  refine regField_eq _ _ _ fun i hi => ?_
  rw [getLsbD_encodeWord _ _ _ _ _ (by omega)]
  simp [show ¬ 8 + i < 4 by omega, show ¬ 8 + i < 8 by omega, show 8 + i < 12 by omega]

@[simp] theorem fieldRs2_encodeWord : fieldRs2 (encodeWord op rd rs1 rs2 imm) = rs2 := by
  refine regField_eq _ _ _ fun i hi => ?_
  rw [getLsbD_encodeWord _ _ _ _ _ (by omega)]
  simp [show ¬ 12 + i < 4 by omega, show ¬ 12 + i < 8 by omega, show ¬ 12 + i < 12 by omega,
    show 12 + i < 16 by omega]

@[simp] theorem fieldImm16_encodeWord : fieldImm16 (encodeWord op rd rs1 rs2 imm) = imm := by
  apply BitVec.eq_of_getLsbD_eq
  intro i hi
  rw [getLsbD_fieldImm16, getLsbD_encodeWord _ _ _ _ _ (by omega)]
  simp [hi, show ¬ 16 + i < 4 by omega, show ¬ 16 + i < 8 by omega, show ¬ 16 + i < 12 by omega,
    show ¬ 16 + i < 16 by omega]

theorem imm16Of_inj {lo hi lo' hi' : BitVec 8} (h : imm16Of lo hi = imm16Of lo' hi') : lo = lo' ∧ hi = hi' := by
  have hbit : ∀ i, (imm16Of lo hi).getLsbD i = (imm16Of lo' hi').getLsbD i := fun i => by rw [h]
  simp only [imm16Of, BitVec.getLsbD_or, BitVec.getLsbD_setWidth, BitVec.getLsbD_shiftLeft] at hbit
  constructor
  · apply BitVec.eq_of_getLsbD_eq
    intro i hi
    simpa [hi, show i < 16 by omega] using hbit i
  · apply BitVec.eq_of_getLsbD_eq
    intro i hi
    have := hbit (8 + i)
    simpa [hi, show 8 + i < 16 by omega, show i < 16 by omega, BitVec.getLsbD_of_ge] using this

@[simp] theorem fieldImmLo_encodeWord (lo hi : BitVec 8) :
    fieldImmLo (encodeWord op rd rs1 rs2 (imm16Of lo hi)) = lo := by
  have h := fieldImm16_eq (encodeWord op rd rs1 rs2 (imm16Of lo hi))
  rw [fieldImm16_encodeWord] at h
  exact (imm16Of_inj h).1.symm

@[simp] theorem fieldImmHi_encodeWord (lo hi : BitVec 8) :
    fieldImmHi (encodeWord op rd rs1 rs2 (imm16Of lo hi)) = hi := by
  have h := fieldImm16_eq (encodeWord op rd rs1 rs2 (imm16Of lo hi))
  rw [fieldImm16_encodeWord] at h
  exact (imm16Of_inj h).2.symm

@[simp] theorem imm16Of_zero : imm16Of 0 0 = 0 := by decide

/-- The low byte alone. -/
theorem imm16Of_lo_eq_zero_iff {lo hi : BitVec 8} : imm16Of lo hi = 0 ↔ lo = 0 ∧ hi = 0 := by
  constructor
  · intro h; exact imm16Of_inj (h.trans imm16Of_zero.symm)
  · rintro ⟨rfl, rfl⟩; exact imm16Of_zero
end fields

/-! ### A word is its fields -/

theorem testBit_regField (w : CmdWord) (lo : Nat) {i : Nat} (hi : i < 4) :
    ((w.extractLsb' lo 4).toFin : RegIdx).val.testBit i = w.getLsbD (lo + i) := by
  have h : (w.extractLsb' lo 4).getLsbD i = w.getLsbD (lo + i) := by
    rw [BitVec.getLsbD_extractLsb']; simp [hi]
  rw [← h]
  rfl

/-- A word is the encoding of its fields. -/
theorem encodeWord_fields (w : CmdWord) :
    encodeWord (fieldOp w) (fieldRd w) (fieldRs1 w) (fieldRs2 w) (fieldImm16 w) = w := by
  apply BitVec.eq_of_getLsbD_eq
  intro i hi
  rw [getLsbD_encodeWord _ _ _ _ _ hi]
  by_cases h1 : i < 4
  · rw [if_pos h1, getLsbD_fieldOp]; simp [h1]
  rw [if_neg h1]
  by_cases h2 : i < 8
  · rw [if_pos h2, fieldRd, testBit_regField w 4 (by omega)]; congr 1; omega
  rw [if_neg h2]
  by_cases h3 : i < 12
  · rw [if_pos h3, fieldRs1, testBit_regField w 8 (by omega)]; congr 1; omega
  rw [if_neg h3]
  by_cases h4 : i < 16
  · rw [if_pos h4, fieldRs2, testBit_regField w 12 (by omega)]; congr 1; omega
  rw [if_neg h4, getLsbD_fieldImm16]
  simp [show i - 16 < 16 by omega, show 16 + (i - 16) = i by omega]

/-- A word with the given fields is their encoding. -/
theorem encodeWord_eq_of_fields {w : CmdWord} {op : BitVec 4} {rd rs1 rs2 : RegIdx} {imm : BitVec 16}
    (hop : fieldOp w = op) (hrd : fieldRd w = rd) (hrs1 : fieldRs1 w = rs1) (hrs2 : fieldRs2 w = rs2)
    (himm : fieldImm16 w = imm) : encodeWord op rd rs1 rs2 imm = w := by
  subst hop hrd hrs1 hrs2 himm
  exact encodeWord_fields w

/-- imm16 from its bytes. -/
theorem fieldImm16_of_bytes {w : CmdWord} {lo hi : BitVec 8} (hlo : fieldImmLo w = lo) (hhi : fieldImmHi w = hi) :
    fieldImm16 w = imm16Of lo hi := by
  rw [fieldImm16_eq, hlo, hhi]

end Sys2Proof
end

