-- ==== Sys2Proof/Laws/State.lean ====
section
/-! SUPPORT. One lemma per field per update of the state, so that no proof unfolds a record update. -/

namespace Sys2Proof.Machine

/-! ### Registers -/

@[simp] theorem State.reg_setReg_self (s : State) (r : RegIdx) (A : Mat) : (s.setReg r A).reg r = .full A := by
  simp [State.reg, State.setReg]

theorem State.reg_setReg_ne (s : State) {r q : RegIdx} (A : Mat) (h : q ≠ r) :
    (s.setReg r A).reg q = s.reg q := by
  have h' : r.val ≠ q.val := fun e => h (Fin.ext e.symm)
  simp [State.reg, State.setReg, h']

theorem State.reg_setReg (s : State) (r q : RegIdx) (A : Mat) :
    (s.setReg r A).reg q = if q = r then .full A else s.reg q := by
  split
  · next h => subst h; simp
  · next h => exact s.reg_setReg_ne A h

/-- Two register files with the same registers are the same. -/
theorem mat_eq_of_reg {s t : State} (h : ∀ r, t.reg r = s.reg r) : t.mat = s.mat := by
  refine Vector.ext fun i hi => ?_
  exact h ⟨i, hi⟩

/-- Two states with the same registers and the same other fields are the same. -/
theorem State.ext_reg {s t : State} (hreg : ∀ r, s.reg r = t.reg r) (hcfg : s.cfg = t.cfg)
    (hcodeM : s.codeM = t.codeM) (hsticky : s.stickyErr = t.stickyErr) (hinbox : s.inbox = t.inbox)
    (hrsp : s.rsp = t.rsp) (htaken : s.taken = t.taken) : s = t := by
  have hmat := mat_eq_of_reg hreg
  cases s
  cases t
  simp_all

section setReg
variable (s : State) (r : RegIdx) (A : Mat)
@[simp] theorem State.setReg_cfg : (s.setReg r A).cfg = s.cfg := rfl
@[simp] theorem State.setReg_codeM : (s.setReg r A).codeM = s.codeM := rfl
@[simp] theorem State.setReg_stickyErr : (s.setReg r A).stickyErr = s.stickyErr := rfl
@[simp] theorem State.setReg_inbox : (s.setReg r A).inbox = s.inbox := rfl
@[simp] theorem State.setReg_rsp : (s.setReg r A).rsp = s.rsp := rfl
@[simp] theorem State.setReg_taken : (s.setReg r A).taken = s.taken := rfl
@[simp] theorem State.setReg_codeN : (s.setReg r A).codeN = s.codeN := rfl
@[simp] theorem State.setReg_codeK : (s.setReg r A).codeK = s.codeK := rfl
end setReg

/-! ### How a command ends -/

section respond
variable (s : State) (v : DataWord)
@[simp] theorem State.respond_cfg : (s.respond v).cfg = s.cfg := rfl
@[simp] theorem State.respond_mat : (s.respond v).mat = s.mat := rfl
@[simp] theorem State.respond_reg (r : RegIdx) : (s.respond v).reg r = s.reg r := rfl
@[simp] theorem State.respond_codeM : (s.respond v).codeM = s.codeM := rfl
@[simp] theorem State.respond_stickyErr : (s.respond v).stickyErr = s.stickyErr := rfl
@[simp] theorem State.respond_inbox : (s.respond v).inbox = s.inbox := rfl
@[simp] theorem State.respond_rsp : (s.respond v).rsp = some ⟨.ok, v⟩ := rfl
@[simp] theorem State.respond_taken : (s.respond v).taken = s.taken := rfl
@[simp] theorem State.respond_codeN : (s.respond v).codeN = s.codeN := rfl
@[simp] theorem State.respond_codeK : (s.respond v).codeK = s.codeK := rfl
end respond

section raise
variable (s : State) (e : CmdError)
@[simp] theorem State.raise_cfg : (s.raise e).cfg = s.cfg := rfl
@[simp] theorem State.raise_mat : (s.raise e).mat = s.mat := rfl
@[simp] theorem State.raise_reg (r : RegIdx) : (s.raise e).reg r = s.reg r := rfl
@[simp] theorem State.raise_codeM : (s.raise e).codeM = s.codeM := rfl
@[simp] theorem State.raise_stickyErr : (s.raise e).stickyErr = true := rfl
@[simp] theorem State.raise_inbox : (s.raise e).inbox = s.inbox := rfl
@[simp] theorem State.raise_rsp : (s.raise e).rsp = some ⟨.error e, 0⟩ := rfl
@[simp] theorem State.raise_taken : (s.raise e).taken = s.taken := rfl
@[simp] theorem State.raise_codeN : (s.raise e).codeN = s.codeN := rfl
@[simp] theorem State.raise_codeK : (s.raise e).codeK = s.codeK := rfl
end raise

/-! ### Loading a code -/

section loadCode
variable (s : State) (m : Nat)
@[simp] theorem State.loadCode_cfg : (s.loadCode m).cfg = s.cfg := rfl
@[simp] theorem State.loadCode_codeM : (s.loadCode m).codeM = BitVec.ofNat 8 m := rfl
@[simp] theorem State.loadCode_stickyErr : (s.loadCode m).stickyErr = s.stickyErr := rfl
@[simp] theorem State.loadCode_inbox : (s.loadCode m).inbox = s.inbox := rfl
@[simp] theorem State.loadCode_rsp : (s.loadCode m).rsp = s.rsp := rfl
@[simp] theorem State.loadCode_taken : (s.loadCode m).taken = s.taken := rfl

theorem State.loadCode_reg (r : RegIdx) : (s.loadCode m).reg r =
    if r = 0 then .full (gMat m) else if r = 1 then .full (hMat m) else if r = 2 then .full (rMat m)
    else s.reg r := by
  have h : (s.loadCode m).reg r = (((s.setReg 0 (gMat m)).setReg 1 (hMat m)).setReg 2 (rMat m)).reg r := rfl
  rw [h, State.reg_setReg, State.reg_setReg, State.reg_setReg]
  by_cases h2 : r = 2
  · subst h2; simp
  · by_cases h1 : r = 1
    · subst h1; simp
    · simp [h1, h2]
end loadCode

/-! ### The port -/

section takeResponse
variable (s : State)
@[simp] theorem State.takeResponse_cfg : s.takeResponse.cfg = s.cfg := rfl
@[simp] theorem State.takeResponse_mat : s.takeResponse.mat = s.mat := rfl
@[simp] theorem State.takeResponse_reg (r : RegIdx) : s.takeResponse.reg r = s.reg r := rfl
@[simp] theorem State.takeResponse_codeM : s.takeResponse.codeM = s.codeM := rfl
@[simp] theorem State.takeResponse_stickyErr : s.takeResponse.stickyErr = s.stickyErr := rfl
@[simp] theorem State.takeResponse_inbox : s.takeResponse.inbox = s.inbox := rfl
@[simp] theorem State.takeResponse_rsp : s.takeResponse.rsp = none := rfl
@[simp] theorem State.takeResponse_taken : s.takeResponse.taken = s.taken ++ s.rsp.toList := rfl
end takeResponse

section init
variable (cfg : Config)
@[simp] theorem State.init_cfg : (State.init cfg).cfg = cfg := rfl
@[simp] theorem State.init_codeM : (State.init cfg).codeM = 0 := rfl
@[simp] theorem State.init_stickyErr : (State.init cfg).stickyErr = false := rfl
@[simp] theorem State.init_inbox : (State.init cfg).inbox = [] := rfl
@[simp] theorem State.init_rsp : (State.init cfg).rsp = none := rfl
@[simp] theorem State.init_taken : (State.init cfg).taken = [] := rfl
@[simp] theorem State.init_reg (r : RegIdx) : (State.init cfg).reg r = .empty := by
  simp [State.init, State.reg]
end init

section applyReset
variable (s : State)
@[simp] theorem State.applyReset_cfg : s.applyReset.cfg = s.cfg := rfl
@[simp] theorem State.applyReset_codeM : s.applyReset.codeM = 0 := rfl
@[simp] theorem State.applyReset_stickyErr : s.applyReset.stickyErr = false := rfl
@[simp] theorem State.applyReset_inbox : s.applyReset.inbox = s.inbox := rfl
@[simp] theorem State.applyReset_rsp : s.applyReset.rsp = none := rfl
@[simp] theorem State.applyReset_taken : s.applyReset.taken = s.taken := rfl
@[simp] theorem State.applyReset_reg (r : RegIdx) : s.applyReset.reg r = .empty := State.init_reg s.cfg r
end applyReset

/-! ### Taking an action from the inbox -/

section withInbox
variable (s : State) (rest : List HostAction)
@[simp] theorem State.withInbox_reg (r : RegIdx) : { s with inbox := rest }.reg r = s.reg r := rfl
@[simp] theorem State.withInbox_cmdReady : { s with inbox := rest }.cmdReady = s.cmdReady := rfl
@[simp] theorem State.withInbox_codeN : { s with inbox := rest }.codeN = s.codeN := rfl
@[simp] theorem State.withInbox_codeK : { s with inbox := rest }.codeK = s.codeK := rfl
end withInbox

end Sys2Proof.Machine
end

