-- ==== Sys2Proof/Laws/Ops.lean ====
section
/-! SUPPORT. One lemma per shared operation, saying all it can do: how a command ends, its checks, its operands. -/

namespace Sys2Proof.Machine

/-! ### How a command ends -/

/-- A command that ends with OK has completed, whatever it wrote to `written`. -/
theorem Completed.of_respond {s t : State} {written : List RegIdx} {out : DataWord}
    (hreg : ∀ r, r ∉ written → t.reg r = s.reg r) (hcodeM : t.codeM = s.codeM)
    (hsticky : t.stickyErr = s.stickyErr) (hcfg : t.cfg = s.cfg) (hinbox : t.inbox = s.inbox)
    (htaken : t.taken = s.taken) : Completed s (t.respond out) written out :=
  ⟨rfl, hreg, hcodeM, hsticky, hcfg, hinbox, htaken⟩

theorem completed_respond_self (s : State) (out : DataWord) : Completed s (s.respond out) [] out :=
  .of_respond (fun _ _ => rfl) rfl rfl rfl rfl rfl

theorem completed_respond_setReg (s : State) (r : RegIdx) (A : Mat) (out : DataWord) :
    Completed s ((s.setReg r A).respond out) [r] out :=
  .of_respond (fun q hq => s.reg_setReg_ne A (by simpa using hq)) rfl rfl rfl rfl rfl

/-- Raising an error is failing with it (`60_exceptions.md` R263). -/
theorem failed_raise (s : State) (e : CmdError) : Failed s (s.raise e) e :=
  ⟨rfl, fun _ => rfl, rfl, rfl, rfl, rfl, rfl⟩

/-- A command that fails with `e` leaves exactly the state that raising `e` leaves. -/
theorem Failed.eq_raise {s t : State} {e : CmdError} (h : Failed s t e) : t = s.raise e :=
  State.ext_reg h.reg h.cfg h.codeM h.stickyErr h.inbox h.rsp h.taken

@[simp] theorem perform_ok (s t : State) (v : DataWord) : perform s (.ok (t, v)) = .next (t.respond v) := rfl
@[simp] theorem perform_error (s : State) (e : CmdError) : perform s (.error e) = .next (s.raise e) := rfl

/-- Performing a command answers a next state, in one of two ways. -/
theorem perform_cases (s : State) (x : Except CmdError (State × DataWord)) :
    (∃ t v, x = .ok (t, v) ∧ perform s x = .next (t.respond v)) ∨
    (∃ e, x = .error e ∧ perform s x = .next (s.raise e)) := by
  rcases x with e | ⟨t, v⟩
  · exact .inr ⟨e, rfl, rfl⟩
  · exact .inl ⟨t, v, rfl, rfl⟩

/-! ### Checks -/

theorem checkWritable_ok {rd : RegIdx} (h : 3 ≤ rd.val) : checkWritable rd = .ok () := if_neg (by omega)
theorem checkWritable_error {rd : RegIdx} (h : rd.val ≤ 2) : checkWritable rd = .error .readOnlyRegister := if_pos h

theorem checkConstructed_ok {s : State} (h : s.codeM ≠ 0) : checkConstructed s = .ok () := if_neg h
theorem checkConstructed_error {s : State} (h : s.codeM = 0) : checkConstructed s = .error .notConstructed := if_pos h

theorem operand_full {s : State} {r : RegIdx} {A : Mat} (h : s.reg r = .full A) : operand s r = .ok A := by
  simp [operand, h]

theorem operand_empty {s : State} {r : RegIdx} (h : s.reg r = .empty) : operand s r = .error .unwritten := by
  simp [operand, h]

@[simp] theorem checkRange_true : checkRange true = .ok () := rfl
@[simp] theorem checkRange_false : checkRange false = .error .invalidParameter := rfl
@[simp] theorem checkSize_true : checkSize true = .ok () := rfl
@[simp] theorem checkSize_false : checkSize false = .error .dimensionMismatch := rfl

theorem sum_ok {A B : Mat} (hr : A.rows = B.rows) (hc : A.cols = B.cols) : sum A B = .ok (madd A B) := by
  simp [sum, hr, hc]

theorem sum_error {A B : Mat} (h : A.rows ≠ B.rows ∨ A.cols ≠ B.cols) : sum A B = .error .dimensionMismatch := by
  have : (A.rows == B.rows && A.cols == B.cols) = false := by
    rcases h with h | h <;> simp [h]
  simp [sum, this]

theorem product_ok {A B : Mat} (h : A.cols = B.rows) : product A B = .ok (mmul A B) := by
  simp [product, h]

theorem product_error {A B : Mat} (h : A.cols ≠ B.rows) : product A B = .error .dimensionMismatch := by
  have : (A.cols == B.rows) = false := by simp [h]
  simp [product, this]

/-- A destination is writable, or the error is ReadOnlyRegister. -/
theorem checkWritable_cases (rd : RegIdx) :
    (3 ≤ rd.val ∧ checkWritable rd = .ok ()) ∨ (rd.val ≤ 2 ∧ checkWritable rd = .error .readOnlyRegister) := by
  rcases Nat.lt_or_ge 2 rd.val with h | h
  · exact .inl ⟨h, checkWritable_ok h⟩
  · exact .inr ⟨h, checkWritable_error h⟩

/-- A code is constructed, or the error is NotConstructed. -/
theorem checkConstructed_cases (s : State) :
    (s.codeM ≠ 0 ∧ checkConstructed s = .ok ()) ∨ (s.codeM = 0 ∧ checkConstructed s = .error .notConstructed) := by
  by_cases h : s.codeM = 0
  · exact .inr ⟨h, checkConstructed_error h⟩
  · exact .inl ⟨h, checkConstructed_ok h⟩

/-- A register holds a matrix, or reading it as an operand gives Unwritten. -/
theorem operand_cases (s : State) (r : RegIdx) :
    (∃ A, s.reg r = .full A ∧ operand s r = .ok A) ∨ (s.reg r = .empty ∧ operand s r = .error .unwritten) := by
  cases h : s.reg r with
  | empty => exact .inr ⟨rfl, operand_empty h⟩
  | full A => exact .inl ⟨A, rfl, operand_full h⟩

/-- A parameter is in range, or the error is InvalidParameter. -/
theorem checkRange_cases (b : Bool) :
    (b = true ∧ checkRange b = .ok ()) ∨ (b = false ∧ checkRange b = .error .invalidParameter) := by
  cases b <;> simp

/-- A size fits, or the error is DimensionMismatch. -/
theorem checkSize_cases (b : Bool) :
    (b = true ∧ checkSize b = .ok ()) ∨ (b = false ∧ checkSize b = .error .dimensionMismatch) := by
  cases b <;> simp

/-- Two matrices have a sum, or the error is DimensionMismatch. -/
theorem sum_cases (A B : Mat) :
    ((A.rows = B.rows ∧ A.cols = B.cols) ∧ sum A B = .ok (madd A B)) ∨
    ((A.rows ≠ B.rows ∨ A.cols ≠ B.cols) ∧ sum A B = .error .dimensionMismatch) := by
  by_cases h : A.rows = B.rows ∧ A.cols = B.cols
  · exact .inl ⟨h, sum_ok h.1 h.2⟩
  · exact .inr ⟨by omega, sum_error (by omega)⟩

/-- Two matrices have a product, or the error is DimensionMismatch. -/
theorem product_cases (A B : Mat) :
    (A.cols = B.rows ∧ product A B = .ok (mmul A B)) ∨
    (A.cols ≠ B.rows ∧ product A B = .error .dimensionMismatch) := by
  by_cases h : A.cols = B.rows
  · exact .inl ⟨h, product_ok h⟩
  · exact .inr ⟨h, product_error h⟩

/-- DATA_IN fits a width when it has no bit at or above it (`20_memory.md` R56). -/
theorem fitsWidth_iff {data : DataWord} {width : Nat} :
    fitsWidth data width = true ↔ ∀ j, width ≤ j → data.getLsbD j = false := by
  simp only [fitsWidth, beq_iff_eq]
  constructor
  · intro h j hj
    have hbit : (data >>> width).getLsbD (j - width) = false := by rw [h]; simp
    rw [BitVec.getLsbD_ushiftRight] at hbit
    rwa [Nat.add_sub_cancel' hj] at hbit
  · intro h
    apply BitVec.eq_of_getLsbD_eq
    intro i _
    rw [BitVec.getLsbD_ushiftRight, h _ (Nat.le_add_right _ _)]
    simp

/-! ### What the invariant gives -/

/-- A matrix fits a register when its dimensions are 1..N_MAX (`10_state.md` R22). -/
theorem MatReg.fits_full_iff {A : Mat} {n : Nat} :
    (MatReg.full A).fits n = true ↔ 1 ≤ A.rows ∧ A.rows ≤ n ∧ 1 ≤ A.cols ∧ A.cols ≤ n := by
  simp [MatReg.fits, and_assoc]

theorem State.Inv.fits {s : State} (h : s.Inv) {r : RegIdx} {A : Mat} (hr : s.reg r = .full A) :
    1 ≤ A.rows ∧ A.rows ≤ nMax s.cfg ∧ 1 ≤ A.cols ∧ A.cols ≤ nMax s.cfg := by
  exact MatReg.fits_full_iff.mp (hr ▸ h.1 r)

/-- With a code constructed, the code registers hold it (`10_state.md` R26). -/
theorem State.Inv.code {s : State} (h : s.Inv) (hm : s.codeM ≠ 0) :
    2 ≤ s.codeM.toNat ∧ s.codeM.toNat ≤ s.cfg.mMax.toNat ∧
    s.reg 0 = .full (gMat s.codeM.toNat) ∧ s.reg 1 = .full (hMat s.codeM.toNat) ∧
    s.reg 2 = .full (rMat s.codeM.toNat) := by
  rcases h.2 with ⟨h0, _⟩ | h'
  · exact absurd h0 hm
  · exact h'

theorem mMax_le_eight (M : MMax) : M.toNat ≤ 8 := by cases M <;> decide
theorem two_le_mMax (M : MMax) : 2 ≤ M.toNat := by cases M <;> decide

theorem nMax_eq_codeLen (cfg : Config) : nMax cfg = codeLen cfg.mMax.toNat := rfl

theorem nMax_le (cfg : Config) : nMax cfg ≤ 255 := codeLen_mono (mMax_le_eight cfg.mMax)

theorem State.codeN_of_ne {s : State} (h : s.codeM ≠ 0) : s.codeN = codeLen s.codeM.toNat := if_neg h
theorem State.codeK_of_ne {s : State} (h : s.codeM ≠ 0) : s.codeK = wordLen s.codeM.toNat := if_neg h

end Sys2Proof.Machine
end

