-- ==== Sys2Proof/Laws/Exec.lean ====
section
/-! SUPPORT. One inversion lemma per meaning: a command either raises an error on the state it found, or all of its checks
held and it ends as the spec's pseudocode says. Later proofs use these and never unfold a meaning. -/

namespace Sys2Proof.Machine

theorem bind_ok {α β : Type} (a : α) (f : α → Except CmdError β) : ((.ok a : Except CmdError α) >>= f) = f a := rfl
theorem bind_error {α β : Type} (e : CmdError) (f : α → Except CmdError β) :
    ((.error e : Except CmdError α) >>= f) = .error e := rfl
theorem pure_ok {α : Type} (a : α) : (pure a : Except CmdError α) = .ok a := rfl
theorem throw_error {α : Type} (e : CmdError) : (throw e : Except CmdError α) = .error e := rfl

/-! ### Register access and status -/

theorem execNop_eq (s : State) : execNop s = .next (s.respond 0) := rfl

theorem execStatus_eq (s : State) : execStatus s = .next (s.respond (statusWord s)) := rfl

theorem execMdim_cases (rd : RegIdx) (rows cols : BitVec 8) (s : State) :
    (∃ e, execMdim rd rows cols s = .next (s.raise e)) ∨
    (3 ≤ rd.val ∧ (1 ≤ rows.toNat ∧ rows.toNat ≤ nMax s.cfg) ∧ (1 ≤ cols.toNat ∧ cols.toNat ≤ nMax s.cfg) ∧
      execMdim rd rows cols s = .next ((s.setReg rd (Mat.zero rows.toNat cols.toNat)).respond 0)) := by
  unfold execMdim
  rcases checkWritable_cases rd with ⟨hrd, h1⟩ | ⟨_, h1⟩
  · rcases checkRange_cases (decide (1 ≤ rows.toNat) && decide (rows.toNat ≤ nMax s.cfg)
      && decide (1 ≤ cols.toNat) && decide (cols.toNat ≤ nMax s.cfg)) with ⟨hr, h2⟩ | ⟨_, h2⟩
    · simp only [Bool.and_eq_true, decide_eq_true_eq] at hr
      exact .inr ⟨hrd, hr.1.1, ⟨hr.1.2, hr.2⟩, by simp only [h1, h2, bind_ok, pure_ok, perform_ok]⟩
    · exact .inl ⟨_, by simp only [h1, h2, bind_ok, bind_error, perform_error]; rfl⟩
  · exact .inl ⟨_, by simp only [h1, bind_error, perform_error]; rfl⟩

theorem execMwrow_cases (rd : RegIdx) (row : BitVec 8) (data : DataWord) (s : State) :
    (∃ e, execMwrow rd row data s = .next (s.raise e)) ∨
    (∃ A, 3 ≤ rd.val ∧ s.reg rd = .full A ∧ row.toNat < A.rows ∧ fitsWidth data A.cols = true ∧
      execMwrow rd row data s = .next ((s.setReg rd (A.setRow row.toNat data)).respond 0)) := by
  unfold execMwrow
  rcases checkWritable_cases rd with ⟨hrd, h1⟩ | ⟨_, h1⟩
  · rcases operand_cases s rd with ⟨A, hA, h2⟩ | ⟨_, h2⟩
    · rcases checkRange_cases (decide (row.toNat < A.rows)) with ⟨hr, h3⟩ | ⟨_, h3⟩
      · rcases checkSize_cases (fitsWidth data A.cols) with ⟨hs, h4⟩ | ⟨_, h4⟩
        · exact .inr ⟨A, hrd, hA, by simpa using hr, hs,
            by simp only [h1, h2, h3, h4, bind_ok, pure_ok, perform_ok]⟩
        · exact .inl ⟨_, by simp only [h1, h2, h3, h4, bind_ok, bind_error, perform_error]; rfl⟩
      · exact .inl ⟨_, by simp only [h1, h2, h3, bind_ok, bind_error, perform_error]; rfl⟩
    · exact .inl ⟨_, by simp only [h1, h2, bind_ok, bind_error, perform_error]; rfl⟩
  · exact .inl ⟨_, by simp only [h1, bind_error, perform_error]; rfl⟩

theorem execMwcol_cases (rd : RegIdx) (col : BitVec 8) (data : DataWord) (s : State) :
    (∃ e, execMwcol rd col data s = .next (s.raise e)) ∨
    (∃ A, 3 ≤ rd.val ∧ s.reg rd = .full A ∧ col.toNat < A.cols ∧ fitsWidth data A.rows = true ∧
      execMwcol rd col data s = .next ((s.setReg rd (A.setCol col.toNat data)).respond 0)) := by
  unfold execMwcol
  rcases checkWritable_cases rd with ⟨hrd, h1⟩ | ⟨_, h1⟩
  · rcases operand_cases s rd with ⟨A, hA, h2⟩ | ⟨_, h2⟩
    · rcases checkRange_cases (decide (col.toNat < A.cols)) with ⟨hr, h3⟩ | ⟨_, h3⟩
      · rcases checkSize_cases (fitsWidth data A.rows) with ⟨hs, h4⟩ | ⟨_, h4⟩
        · exact .inr ⟨A, hrd, hA, by simpa using hr, hs,
            by simp only [h1, h2, h3, h4, bind_ok, pure_ok, perform_ok]⟩
        · exact .inl ⟨_, by simp only [h1, h2, h3, h4, bind_ok, bind_error, perform_error]; rfl⟩
      · exact .inl ⟨_, by simp only [h1, h2, h3, bind_ok, bind_error, perform_error]; rfl⟩
    · exact .inl ⟨_, by simp only [h1, h2, bind_ok, bind_error, perform_error]; rfl⟩
  · exact .inl ⟨_, by simp only [h1, bind_error, perform_error]; rfl⟩

theorem execMrrow_cases (rs1 : RegIdx) (row : BitVec 8) (s : State) :
    (∃ e, execMrrow rs1 row s = .next (s.raise e)) ∨
    (∃ A, s.reg rs1 = .full A ∧ row.toNat < A.rows ∧
      execMrrow rs1 row s = .next (s.respond (rowWord A row.toNat))) := by
  unfold execMrrow
  rcases operand_cases s rs1 with ⟨A, hA, h2⟩ | ⟨_, h2⟩
  · rcases checkRange_cases (decide (row.toNat < A.rows)) with ⟨hr, h3⟩ | ⟨_, h3⟩
    · exact .inr ⟨A, hA, by simpa using hr, by simp only [h2, h3, bind_ok, pure_ok, perform_ok]⟩
    · exact .inl ⟨_, by simp only [h2, h3, bind_ok, bind_error, perform_error]; rfl⟩
  · exact .inl ⟨_, by simp only [h2, bind_error, perform_error]; rfl⟩

theorem execMrcol_cases (rs1 : RegIdx) (col : BitVec 8) (s : State) :
    (∃ e, execMrcol rs1 col s = .next (s.raise e)) ∨
    (∃ A, s.reg rs1 = .full A ∧ col.toNat < A.cols ∧
      execMrcol rs1 col s = .next (s.respond (colWord A col.toNat))) := by
  unfold execMrcol
  rcases operand_cases s rs1 with ⟨A, hA, h2⟩ | ⟨_, h2⟩
  · rcases checkRange_cases (decide (col.toNat < A.cols)) with ⟨hr, h3⟩ | ⟨_, h3⟩
    · exact .inr ⟨A, hA, by simpa using hr, by simp only [h2, h3, bind_ok, pure_ok, perform_ok]⟩
    · exact .inl ⟨_, by simp only [h2, h3, bind_ok, bind_error, perform_error]; rfl⟩
  · exact .inl ⟨_, by simp only [h2, bind_error, perform_error]; rfl⟩

theorem execMshape_cases (rs1 : RegIdx) (s : State) :
    (∃ e, execMshape rs1 s = .next (s.raise e)) ∨
    (∃ A, s.reg rs1 = .full A ∧ execMshape rs1 s = .next (s.respond (shapeWord A))) := by
  unfold execMshape
  rcases operand_cases s rs1 with ⟨A, hA, h2⟩ | ⟨_, h2⟩
  · exact .inr ⟨A, hA, by simp only [h2, bind_ok, pure_ok, perform_ok]⟩
  · exact .inl ⟨_, by simp only [h2, bind_error, perform_error]; rfl⟩

/-! ### The ALU -/

theorem execMadd_cases (rd rs1 rs2 : RegIdx) (s : State) :
    (∃ e, execMadd rd rs1 rs2 s = .next (s.raise e)) ∨
    (∃ A B, 3 ≤ rd.val ∧ s.reg rs1 = .full A ∧ s.reg rs2 = .full B ∧ (A.rows = B.rows ∧ A.cols = B.cols) ∧
      execMadd rd rs1 rs2 s = .next ((s.setReg rd (madd A B)).respond 0)) := by
  unfold execMadd
  rcases checkWritable_cases rd with ⟨hrd, h1⟩ | ⟨_, h1⟩
  · rcases operand_cases s rs1 with ⟨A, hA, h2⟩ | ⟨_, h2⟩
    · rcases operand_cases s rs2 with ⟨B, hB, h3⟩ | ⟨_, h3⟩
      · rcases sum_cases A B with ⟨hs, h4⟩ | ⟨_, h4⟩
        · exact .inr ⟨A, B, hrd, hA, hB, hs, by simp only [h1, h2, h3, h4, bind_ok, pure_ok, perform_ok]⟩
        · exact .inl ⟨_, by simp only [h1, h2, h3, h4, bind_ok, bind_error, perform_error]; rfl⟩
      · exact .inl ⟨_, by simp only [h1, h2, h3, bind_ok, bind_error, perform_error]; rfl⟩
    · exact .inl ⟨_, by simp only [h1, h2, bind_ok, bind_error, perform_error]; rfl⟩
  · exact .inl ⟨_, by simp only [h1, bind_error, perform_error]; rfl⟩

theorem execMmul_cases (rd rs1 rs2 : RegIdx) (s : State) :
    (∃ e, execMmul rd rs1 rs2 s = .next (s.raise e)) ∨
    (∃ A B, 3 ≤ rd.val ∧ s.reg rs1 = .full A ∧ s.reg rs2 = .full B ∧ A.cols = B.rows ∧
      execMmul rd rs1 rs2 s = .next ((s.setReg rd (mmul A B)).respond 0)) := by
  unfold execMmul
  rcases checkWritable_cases rd with ⟨hrd, h1⟩ | ⟨_, h1⟩
  · rcases operand_cases s rs1 with ⟨A, hA, h2⟩ | ⟨_, h2⟩
    · rcases operand_cases s rs2 with ⟨B, hB, h3⟩ | ⟨_, h3⟩
      · rcases product_cases A B with ⟨hs, h4⟩ | ⟨_, h4⟩
        · exact .inr ⟨A, B, hrd, hA, hB, hs, by simp only [h1, h2, h3, h4, bind_ok, pure_ok, perform_ok]⟩
        · exact .inl ⟨_, by simp only [h1, h2, h3, h4, bind_ok, bind_error, perform_error]; rfl⟩
      · exact .inl ⟨_, by simp only [h1, h2, h3, bind_ok, bind_error, perform_error]; rfl⟩
    · exact .inl ⟨_, by simp only [h1, h2, bind_ok, bind_error, perform_error]; rfl⟩
  · exact .inl ⟨_, by simp only [h1, bind_error, perform_error]; rfl⟩

/-! ### The code commands -/

theorem execConstruct_cases (m : BitVec 16) (s : State) :
    (∃ e, execConstruct m s = .next (s.raise e)) ∨
    ((2 ≤ m.toNat ∧ m.toNat ≤ s.cfg.mMax.toNat) ∧
      execConstruct m s = .next ((s.loadCode m.toNat).respond (constructWord m.toNat))) := by
  unfold execConstruct
  rcases checkRange_cases (decide (2 ≤ m.toNat) && decide (m.toNat ≤ s.cfg.mMax.toNat)) with ⟨hr, h1⟩ | ⟨_, h1⟩
  · exact .inr ⟨by simpa using hr, by simp only [h1, bind_ok, pure_ok, perform_ok]⟩
  · exact .inl ⟨_, by simp only [h1, bind_error, perform_error]; rfl⟩

theorem execEncode_cases (rd rs1 : RegIdx) (s : State) :
    (∃ e, execEncode rd rs1 s = .next (s.raise e)) ∨
    (∃ w G, 3 ≤ rd.val ∧ s.codeM ≠ 0 ∧ s.reg rs1 = .full w ∧ s.reg 0 = .full G ∧
      (w.rows = s.codeK ∧ w.cols = 1) ∧ G.cols = w.rows ∧
      execEncode rd rs1 s = .next ((s.setReg rd (mmul G w)).respond 0)) := by
  unfold execEncode
  rcases checkWritable_cases rd with ⟨hrd, h1⟩ | ⟨_, h1⟩
  · rcases checkConstructed_cases s with ⟨hm, h2⟩ | ⟨_, h2⟩
    · rcases operand_cases s rs1 with ⟨w, hw, h3⟩ | ⟨_, h3⟩
      · rcases operand_cases s 0 with ⟨G, hG, h4⟩ | ⟨_, h4⟩
        · rcases checkSize_cases (w.rows == s.codeK && w.cols == 1) with ⟨hs, h5⟩ | ⟨_, h5⟩
          · rcases product_cases G w with ⟨hp, h6⟩ | ⟨_, h6⟩
            · exact .inr ⟨w, G, hrd, hm, hw, hG, by simpa using hs, hp,
                by simp only [h1, h2, h3, h4, h5, h6, bind_ok, pure_ok, perform_ok]⟩
            · exact .inl ⟨_, by simp only [h1, h2, h3, h4, h5, h6, bind_ok, bind_error, perform_error]; rfl⟩
          · exact .inl ⟨_, by simp only [h1, h2, h3, h4, h5, bind_ok, bind_error, perform_error]; rfl⟩
        · exact .inl ⟨_, by simp only [h1, h2, h3, h4, bind_ok, bind_error, perform_error]; rfl⟩
      · exact .inl ⟨_, by simp only [h1, h2, h3, bind_ok, bind_error, perform_error]; rfl⟩
    · exact .inl ⟨_, by simp only [h1, h2, bind_ok, bind_error, perform_error]; rfl⟩
  · exact .inl ⟨_, by simp only [h1, bind_error, perform_error]; rfl⟩

theorem execInject_cases (rd rs1 : RegIdx) (pos : BitVec 16) (s : State) :
    (∃ e, execInject rd rs1 pos s = .next (s.raise e)) ∨
    (∃ c, 3 ≤ rd.val ∧ s.codeM ≠ 0 ∧ s.reg rs1 = .full c ∧ (1 ≤ pos.toNat ∧ pos.toNat ≤ s.codeN) ∧
      (c.rows = s.codeN ∧ c.cols = 1) ∧
      execInject rd rs1 pos s = .next ((s.setReg rd (madd c (unitVec s.codeN pos.toNat))).respond 0)) := by
  unfold execInject
  rcases checkWritable_cases rd with ⟨hrd, h1⟩ | ⟨_, h1⟩
  · rcases checkConstructed_cases s with ⟨hm, h2⟩ | ⟨_, h2⟩
    · rcases operand_cases s rs1 with ⟨c, hc, h3⟩ | ⟨_, h3⟩
      · rcases checkRange_cases (decide (1 ≤ pos.toNat) && decide (pos.toNat ≤ s.codeN)) with ⟨hr, h4⟩ | ⟨_, h4⟩
        · rcases checkSize_cases (c.rows == s.codeN && c.cols == 1) with ⟨hs, h5⟩ | ⟨_, h5⟩
          · exact .inr ⟨c, hrd, hm, hc, by simpa using hr, by simpa using hs,
              by simp only [h1, h2, h3, h4, h5, bind_ok, pure_ok, perform_ok]⟩
          · exact .inl ⟨_, by simp only [h1, h2, h3, h4, h5, bind_ok, bind_error, perform_error]; rfl⟩
        · exact .inl ⟨_, by simp only [h1, h2, h3, h4, bind_ok, bind_error, perform_error]; rfl⟩
      · exact .inl ⟨_, by simp only [h1, h2, h3, bind_ok, bind_error, perform_error]; rfl⟩
    · exact .inl ⟨_, by simp only [h1, h2, bind_ok, bind_error, perform_error]; rfl⟩
  · exact .inl ⟨_, by simp only [h1, bind_error, perform_error]; rfl⟩

theorem execDecode_cases (rd rc rs1 : RegIdx) (s : State) :
    (∃ e, execDecode rd rc rs1 s = .next (s.raise e)) ∨
    (∃ x H R, rd ≠ rc ∧ 3 ≤ rd.val ∧ 3 ≤ rc.val ∧ s.codeM ≠ 0 ∧ s.reg rs1 = .full x ∧ s.reg 1 = .full H ∧
      s.reg 2 = .full R ∧ (x.rows = s.codeN ∧ x.cols = 1) ∧ H.cols = x.rows ∧
      R.cols = (correct s.codeN x (toInt (mmul H x))).rows ∧
      execDecode rd rc rs1 s = .next
        (((s.setReg rd (mmul R (correct s.codeN x (toInt (mmul H x))))).setReg rc
          (correct s.codeN x (toInt (mmul H x)))).respond (zext256 (toInt (mmul H x))))) := by
  unfold execDecode
  by_cases hne : rd = rc
  · exact .inl ⟨_, by simp only [hne, if_true, throw_error, bind_error, perform_error]; rfl⟩
  rcases checkWritable_cases rd with ⟨hrd, h1⟩ | ⟨_, h1⟩
  · rcases checkWritable_cases rc with ⟨hrc, h2⟩ | ⟨_, h2⟩
    · rcases checkConstructed_cases s with ⟨hm, h3⟩ | ⟨_, h3⟩
      · rcases operand_cases s rs1 with ⟨x, hx, h4⟩ | ⟨_, h4⟩
        · rcases operand_cases s 1 with ⟨H, hH, h5⟩ | ⟨_, h5⟩
          · rcases operand_cases s 2 with ⟨R, hR, h6⟩ | ⟨_, h6⟩
            · rcases checkSize_cases (x.rows == s.codeN && x.cols == 1) with ⟨hs, h7⟩ | ⟨_, h7⟩
              · rcases product_cases H x with ⟨hp, h8⟩ | ⟨_, h8⟩
                · rcases product_cases R (correct s.codeN x (toInt (mmul H x))) with ⟨hq, h9⟩ | ⟨_, h9⟩
                  · exact .inr ⟨x, H, R, hne, hrd, hrc, hm, hx, hH, hR, by simpa using hs, hp, hq,
                      by simp only [hne, if_false, h1, h2, h3, h4, h5, h6, h7, h8, h9, bind_ok, pure_ok, perform_ok]⟩
                  · exact .inl ⟨_, by simp only [hne, if_false, h1, h2, h3, h4, h5, h6, h7, h8, h9, bind_ok, bind_error,
                      pure_ok, perform_error]; rfl⟩
                · exact .inl ⟨_, by simp only [hne, if_false, h1, h2, h3, h4, h5, h6, h7, h8, bind_ok, bind_error,
                    pure_ok, perform_error]; rfl⟩
              · exact .inl ⟨_, by simp only [hne, if_false, h1, h2, h3, h4, h5, h6, h7, bind_ok, bind_error, pure_ok,
                  perform_error]; rfl⟩
            · exact .inl ⟨_, by simp only [hne, if_false, h1, h2, h3, h4, h5, h6, bind_ok, bind_error, pure_ok,
                perform_error]; rfl⟩
          · exact .inl ⟨_, by simp only [hne, if_false, h1, h2, h3, h4, h5, bind_ok, bind_error, pure_ok,
              perform_error]; rfl⟩
        · exact .inl ⟨_, by simp only [hne, if_false, h1, h2, h3, h4, bind_ok, bind_error, pure_ok, perform_error]; rfl⟩
      · exact .inl ⟨_, by simp only [hne, if_false, h1, h2, h3, bind_ok, bind_error, pure_ok, perform_error]; rfl⟩
    · exact .inl ⟨_, by simp only [hne, if_false, h1, h2, bind_ok, bind_error, pure_ok, perform_error]; rfl⟩
  · exact .inl ⟨_, by simp only [hne, if_false, h1, bind_error, pure_ok, perform_error]; rfl⟩

/-! ### When a command ends OK: its checks hold -/

theorem execMdim_ok {rd : RegIdx} {rows cols : BitVec 8} {s : State} (hrd : 3 ≤ rd.val)
    (hr : 1 ≤ rows.toNat ∧ rows.toNat ≤ nMax s.cfg) (hc : 1 ≤ cols.toNat ∧ cols.toNat ≤ nMax s.cfg) :
    execMdim rd rows cols s = .next ((s.setReg rd (Mat.zero rows.toNat cols.toNat)).respond 0) := by
  simp only [execMdim, checkWritable_ok hrd, hr.1, hr.2, hc.1, hc.2, decide_true, Bool.and_true, checkRange_true, bind_ok,
    pure_ok, perform_ok]

theorem execMwrow_ok {rd : RegIdx} {row : BitVec 8} {data : DataWord} {s : State} {A : Mat} (hrd : 3 ≤ rd.val)
    (hA : s.reg rd = .full A) (hr : row.toNat < A.rows) (hd : fitsWidth data A.cols = true) :
    execMwrow rd row data s = .next ((s.setReg rd (A.setRow row.toNat data)).respond 0) := by
  simp only [execMwrow, checkWritable_ok hrd, operand_full hA, hr, hd, decide_true, checkRange_true, checkSize_true,
    bind_ok, pure_ok, perform_ok]

theorem execMwcol_ok {rd : RegIdx} {col : BitVec 8} {data : DataWord} {s : State} {A : Mat} (hrd : 3 ≤ rd.val)
    (hA : s.reg rd = .full A) (hc : col.toNat < A.cols) (hd : fitsWidth data A.rows = true) :
    execMwcol rd col data s = .next ((s.setReg rd (A.setCol col.toNat data)).respond 0) := by
  simp only [execMwcol, checkWritable_ok hrd, operand_full hA, hc, hd, decide_true, checkRange_true, checkSize_true,
    bind_ok, pure_ok, perform_ok]

theorem execMrrow_ok {rs1 : RegIdx} {row : BitVec 8} {s : State} {A : Mat} (hA : s.reg rs1 = .full A)
    (hr : row.toNat < A.rows) : execMrrow rs1 row s = .next (s.respond (rowWord A row.toNat)) := by
  simp only [execMrrow, operand_full hA, hr, decide_true, checkRange_true, bind_ok, pure_ok, perform_ok]

theorem execMrcol_ok {rs1 : RegIdx} {col : BitVec 8} {s : State} {A : Mat} (hA : s.reg rs1 = .full A)
    (hc : col.toNat < A.cols) : execMrcol rs1 col s = .next (s.respond (colWord A col.toNat)) := by
  simp only [execMrcol, operand_full hA, hc, decide_true, checkRange_true, bind_ok, pure_ok, perform_ok]

theorem execMshape_ok {rs1 : RegIdx} {s : State} {A : Mat} (hA : s.reg rs1 = .full A) :
    execMshape rs1 s = .next (s.respond (shapeWord A)) := by
  simp only [execMshape, operand_full hA, bind_ok, pure_ok, perform_ok]

theorem execMadd_ok {rd rs1 rs2 : RegIdx} {s : State} {A B : Mat} (hrd : 3 ≤ rd.val) (hA : s.reg rs1 = .full A)
    (hB : s.reg rs2 = .full B) (hr : A.rows = B.rows) (hc : A.cols = B.cols) :
    execMadd rd rs1 rs2 s = .next ((s.setReg rd (madd A B)).respond 0) := by
  simp only [execMadd, checkWritable_ok hrd, operand_full hA, operand_full hB, sum_ok hr hc, bind_ok, pure_ok, perform_ok]

theorem execMmul_ok {rd rs1 rs2 : RegIdx} {s : State} {A B : Mat} (hrd : 3 ≤ rd.val) (hA : s.reg rs1 = .full A)
    (hB : s.reg rs2 = .full B) (h : A.cols = B.rows) :
    execMmul rd rs1 rs2 s = .next ((s.setReg rd (mmul A B)).respond 0) := by
  simp only [execMmul, checkWritable_ok hrd, operand_full hA, operand_full hB, product_ok h, bind_ok, pure_ok, perform_ok]

theorem execConstruct_ok {m : BitVec 16} {s : State} (h2 : 2 ≤ m.toNat) (hM : m.toNat ≤ s.cfg.mMax.toNat) :
    execConstruct m s = .next ((s.loadCode m.toNat).respond (constructWord m.toNat)) := by
  simp only [execConstruct, h2, hM, decide_true, Bool.and_true, checkRange_true, bind_ok, pure_ok, perform_ok]

theorem execEncode_ok {rd rs1 : RegIdx} {s : State} {w G : Mat} (hrd : 3 ≤ rd.val) (hm : s.codeM ≠ 0)
    (hw : s.reg rs1 = .full w) (hG : s.reg 0 = .full G) (hr : w.rows = s.codeK) (hc : w.cols = 1)
    (hp : G.cols = w.rows) : execEncode rd rs1 s = .next ((s.setReg rd (mmul G w)).respond 0) := by
  have hs : (w.rows == s.codeK && w.cols == 1) = true := by simp [hr, hc]
  simp only [execEncode, checkWritable_ok hrd, checkConstructed_ok hm, operand_full hw, operand_full hG, hs,
    checkSize_true, product_ok hp, bind_ok, pure_ok, perform_ok]

theorem execInject_ok {rd rs1 : RegIdx} {pos : BitVec 16} {s : State} {c : Mat} (hrd : 3 ≤ rd.val) (hm : s.codeM ≠ 0)
    (hc : s.reg rs1 = .full c) (h1 : 1 ≤ pos.toNat) (hn : pos.toNat ≤ s.codeN) (hr : c.rows = s.codeN)
    (hcols : c.cols = 1) :
    execInject rd rs1 pos s = .next ((s.setReg rd (madd c (unitVec s.codeN pos.toNat))).respond 0) := by
  have hs : (c.rows == s.codeN && c.cols == 1) = true := by simp [hr, hcols]
  simp only [execInject, checkWritable_ok hrd, checkConstructed_ok hm, operand_full hc, h1, hn, decide_true, Bool.and_true,
    checkRange_true, hs, checkSize_true, bind_ok, pure_ok, perform_ok]

@[simp] theorem correct_rows (n : Nat) (x : Mat) (idx : Nat) : (correct n x idx).rows = x.rows := by
  unfold correct; split <;> rfl

@[simp] theorem correct_cols (n : Nat) (x : Mat) (idx : Nat) : (correct n x idx).cols = x.cols := by
  unfold correct; split <;> rfl

theorem execDecode_ok {rd rc rs1 : RegIdx} {s : State} {x H R : Mat} (hne : rd ≠ rc) (hrd : 3 ≤ rd.val)
    (hrc : 3 ≤ rc.val) (hm : s.codeM ≠ 0) (hx : s.reg rs1 = .full x) (hH : s.reg 1 = .full H) (hR : s.reg 2 = .full R)
    (hr : x.rows = s.codeN) (hc : x.cols = 1) (hp : H.cols = x.rows) (hq : R.cols = x.rows) :
    execDecode rd rc rs1 s = .next
      (((s.setReg rd (mmul R (correct s.codeN x (toInt (mmul H x))))).setReg rc
        (correct s.codeN x (toInt (mmul H x)))).respond (zext256 (toInt (mmul H x)))) := by
  have hs : (x.rows == s.codeN && x.cols == 1) = true := by simp [hr, hc]
  simp only [execDecode, if_neg hne, checkWritable_ok hrd, checkWritable_ok hrc, checkConstructed_ok hm, operand_full hx,
    operand_full hH, operand_full hR, hs, checkSize_true, product_ok hp,
    product_ok (show R.cols = (correct s.codeN x (toInt (mmul H x))).rows by simpa using hq), bind_ok, pure_ok, perform_ok]

/-! ### The port -/

theorem step_nil {s : State} (h : s.inbox = []) : step s = .next s := by
  simp [step, h]

theorem step_cons {s : State} {a : HostAction} {rest : List HostAction} (h : s.inbox = a :: rest) :
    step s = act a { s with inbox := rest } := by
  simp [step, h]

theorem act_command {s : State} (c : Command) (h : s.rsp = none) : act (.command c) s = runCommand c s := by
  simp [act, State.cmdReady, h]

theorem runCommand_instr {c : Command} {i : Instr} (h : decode c = .instr i) (s : State) :
    runCommand c s = exec i s := by
  simp [runCommand, h]

theorem runCommand_illegal {c : Command} {why : Illegal} (h : decode c = .illegal why) (s : State) :
    runCommand c s = .next (s.raise .illegalCommand) := by
  simp [runCommand, h]

end Sys2Proof.Machine
end

