-- ==== Sys2Proof/Laws/PerInstr.lean ====
section
/-! SUPPORT. What holds of every instruction, one lemma per constructor: its encoding carries the opcode of its row, and the
fields the row requires to be zero are zero (`30_encoding.md` R73, R81). -/

namespace Sys2Proof.Laws.EncodedFields

def Statement (i : Instr) : Prop := fieldOp (encode i).word = i.op.code ∧ i.op.zeroFields (encode i).word

theorem imm_zero : (0 : BitVec 16) = imm16Of 0 0 := imm16Of_zero.symm

theorem nop : Statement .nop := by
  simp only [Statement, Instr.op, Op.code, Op.zeroFields, Sys2Proof.encode, imm_zero]; simp
theorem construct (m : BitVec 16) : Statement (.construct m) := by
  simp only [Statement, Instr.op, Op.code, Op.zeroFields, Sys2Proof.encode]; simp
theorem encode (rd rs1 : RegIdx) : Statement (.encode rd rs1) := by
  simp only [Statement, Instr.op, Op.code, Op.zeroFields, Sys2Proof.encode, imm_zero]; simp
theorem inject (rd rs1 : RegIdx) (pos : BitVec 16) : Statement (.inject rd rs1 pos) := by
  simp only [Statement, Instr.op, Op.code, Op.zeroFields, Sys2Proof.encode]; simp
theorem decode (rd rc rs1 : RegIdx) : Statement (.decode rd rc rs1) := by
  simp only [Statement, Instr.op, Op.code, Op.zeroFields, Sys2Proof.encode, imm_zero]; simp
theorem madd (rd rs1 rs2 : RegIdx) : Statement (.madd rd rs1 rs2) := by
  simp only [Statement, Instr.op, Op.code, Op.zeroFields, Sys2Proof.encode, imm_zero]; simp
theorem mmul (rd rs1 rs2 : RegIdx) : Statement (.mmul rd rs1 rs2) := by
  simp only [Statement, Instr.op, Op.code, Op.zeroFields, Sys2Proof.encode, imm_zero]; simp
theorem mdim (rd : RegIdx) (rows cols : BitVec 8) : Statement (.mdim rd rows cols) := by
  simp only [Statement, Instr.op, Op.code, Op.zeroFields, Sys2Proof.encode]; simp
theorem mwrow (rd : RegIdx) (row : BitVec 8) (data : DataWord) : Statement (.mwrow rd row data) := by
  simp only [Statement, Instr.op, Op.code, Op.zeroFields, Sys2Proof.encode]; simp
theorem mrrow (rs1 : RegIdx) (row : BitVec 8) : Statement (.mrrow rs1 row) := by
  simp only [Statement, Instr.op, Op.code, Op.zeroFields, Sys2Proof.encode]; simp
theorem mwcol (rd : RegIdx) (col : BitVec 8) (data : DataWord) : Statement (.mwcol rd col data) := by
  simp only [Statement, Instr.op, Op.code, Op.zeroFields, Sys2Proof.encode]; simp
theorem mrcol (rs1 : RegIdx) (col : BitVec 8) : Statement (.mrcol rs1 col) := by
  simp only [Statement, Instr.op, Op.code, Op.zeroFields, Sys2Proof.encode]; simp
theorem mshape (rs1 : RegIdx) : Statement (.mshape rs1) := by
  simp only [Statement, Instr.op, Op.code, Op.zeroFields, Sys2Proof.encode, imm_zero]; simp
theorem status : Statement .status := by
  simp only [Statement, Instr.op, Op.code, Op.zeroFields, Sys2Proof.encode, imm_zero]; simp

end Sys2Proof.Laws.EncodedFields
end

