-- ==== Sys2Proof/Tests/Slice0.lean ====
section
/-! SUPPORT. The model's own tests. Expected results come from the spec: `30_encoding.md` R82 and R83, `41_code_construction.md`
R143 and `95_test_vectors.md`. The theorems named `witness_<Name>` show a state and operands that meet all hypotheses of
`Obligations.<Name>` together, at the ends of their ranges. -/

namespace Sys2Proof.Tests
open Sys2Proof.Machine

/-! ### Helpers -/

/-- The L×1 vector written `L×1 : 0xW` in `95_test_vectors.md`. -/
def vec (L : Nat) (w : DataWord) : Mat := Mat.ofFn L 1 fun i _ => w.getLsbD i

/-- The matrix written `r×c rows [..]` in `95_test_vectors.md`. -/
def rowsMat (c : Nat) (rows : List DataWord) : Mat := Mat.ofFn rows.length c fun i j => (rows.getD i 0).getLsbD j

/-- The next state. -/
def after (o : Host.Outcome State Fault Refusal) : State :=
  match o with
  | .next t => t
  | .fault _ => State.reset
  | .refused _ => State.reset

/-- There is a next state. -/
def goesOn (o : Host.Outcome State Fault Refusal) : Bool :=
  match o with
  | .next _ => true
  | .fault _ => false
  | .refused _ => false

theorem next_after {o : Host.Outcome State Fault Refusal} (h : goesOn o = true) : o = .next (after o) := by
  cases o <;> simp_all [goesOn, after]

/-- The reset state with M_MAX = 3. -/
def blank : State := State.init ⟨.m3⟩

/-- After `construct 3`, with m3 = 4×1 : 0x1, m4 = 7×1 : 0x07 and m5 = 7×1 : 0x03. -/
def coded : State := (((blank.loadCode 3).setReg 3 (vec 4 1)).setReg 4 (vec 7 7)).setReg 5 (vec 7 3)

/-- A failed command's state. -/
def failed : State := coded.raise .unwritten

/-! ### Well-formedness and decoding -/

theorem test_wellFormed_refuses_same_destination : (Instr.decode 6 6 5).wellFormed = false := by decide
theorem test_wellFormed_accepts_two_destinations : (Instr.decode 6 7 5).wellFormed = true := by decide

theorem test_decode_nop : decodeTableWord 32 0x00000000 = some .nop := by decide
theorem test_decode_construct : decodeTableWord 32 0x00030001 = some (.construct 3) := by decide
theorem test_decode_encode : decodeTableWord 32 0x00000342 = some (.encode 4 3) := by decide
theorem test_decode_inject : decodeTableWord 32 0x00030453 = some (.inject 5 4 3) := by decide
theorem test_decode_decode : decodeTableWord 32 0x00007564 = some (.decode 6 7 5) := by decide
theorem test_decode_madd : decodeTableWord 32 0x00004355 = some (.madd 5 3 4) := by decide
theorem test_decode_mmul : decodeTableWord 32 0x00000136 = some (.mmul 3 1 0) := by decide
theorem test_decode_mdim : decodeTableWord 32 0x01040037 = some (.mdim 3 4 1) := by decide
theorem test_decode_mwrow : decodeTableWord 32 0x00020038 = some (.mwrow 3 2 0) := by decide
theorem test_decode_mrrow : decodeTableWord 32 0x00060009 = some (.mrrow 0 6) := by decide
theorem test_decode_mwcol : decode ⟨0x0000003A, 1⟩ = .instr (.mwcol 3 0 1) := by decide
theorem test_decode_mrcol : decodeTableWord 32 0x0000040B = some (.mrcol 4 0) := by decide
theorem test_decode_mshape : decodeTableWord 32 0x0000010C = some (.mshape 1) := by decide
theorem test_decode_status : decodeTableWord 32 0x0000000D = some .status := by decide
theorem test_decode_reserved_opcode : decodeTableWord 32 0xFFFFFFFF = none := by decide
theorem test_decode_must_be_zero : decodeTableWord 32 0x00031453 = none := by decide
theorem test_decode_same_destination : decodeTableWord 32 0x00006564 = none := by decide

/-- The first step after reset runs the table word. -/
theorem test_withFetchWord : (after (step (State.reset.withFetchWord 32 0x01040037))).reg 3 = .full (vec 4 0) := by decide

/-! ### Assembler text (`30_encoding.md` R84, R85) -/

theorem test_assemble_vload : assembleLine "vload m3, 4, 0x1".toList = .ok [⟨0x01040037, 0⟩, ⟨0x0000003A, 1⟩] := by decide
theorem test_assemble_chkrg : assembleLine "chkrg m4 ; R·G".toList = .ok [⟨0x00000246, 0⟩] := by decide
theorem test_assemble_out_of_range_value : assembleLine "construct 1".toList = .ok [⟨0x00010001, 0⟩] := by decide
theorem test_assemble_does_not_truncate : assembleLine "mdim m3, 256, 1".toList = .error .tooLarge := by decide

/-! ### One step of each command -/

theorem test_nop : after (exec .nop blank) = blank.respond 0 := by decide

theorem test_construct_dataOut : (after (exec (.construct 3) blank)).rsp = some ⟨.ok, 0x030407⟩ := by decide
theorem test_construct_matrices :
    (after (exec (.construct 3) blank)).reg 0 = .full (rowsMat 4 [0xB, 0xD, 0x1, 0xE, 0x2, 0x4, 0x8]) ∧
    (after (exec (.construct 3) blank)).reg 1 = .full (rowsMat 7 [0x55, 0x66, 0x78]) ∧
    (after (exec (.construct 3) blank)).reg 2 = .full (rowsMat 7 [0x04, 0x10, 0x20, 0x40]) := by decide

theorem test_encode : (after (exec (.encode 4 3) coded)).reg 4 = .full (vec 7 7) := by decide
theorem test_encode_in_place : (after (exec (.encode 3 3) (coded.setReg 3 (vec 4 0x9)))).reg 3 = .full (vec 7 0x4C) := by
  decide

theorem test_inject : (after (exec (.inject 6 4 7) coded)).reg 6 = .full (vec 7 0x47) := by decide
theorem test_inject_past_the_end : (after (exec (.inject 7 4 8) coded)).rsp = some ⟨.error .invalidParameter, 0⟩ := by decide

theorem test_decode : (after (exec (.decode 6 7 5) coded)).reg 6 = .full (vec 4 1) ∧
    (after (exec (.decode 6 7 5) coded)).reg 7 = .full (vec 7 7) ∧
    (after (exec (.decode 6 7 5) coded)).rsp = some ⟨.ok, 3⟩ := by decide
theorem test_decode_double_error : (after (exec (.decode 6 7 4) (coded.setReg 4 (vec 7 4)))).reg 7 = .full (vec 7 0) ∧
    (after (exec (.decode 6 7 4) (coded.setReg 4 (vec 7 4)))).rsp = some ⟨.ok, 3⟩ := by decide

theorem test_madd_in_place : (after (exec (.madd 3 3 6) (coded.setReg 6 (vec 4 3)))).reg 3 = .full (vec 4 2) := by decide
theorem test_madd_sizes : (after (exec (.madd 8 3 4) coded)).rsp = some ⟨.error .dimensionMismatch, 0⟩ := by decide

theorem test_mmul_outer : (after (exec (.mmul 14 12 13) ((blank.setReg 12 (vec 3 5)).setReg 13 (rowsMat 2 [3])))).reg 14 =
    .full (rowsMat 2 [3, 0, 3]) := by decide
theorem test_mmul_square : (after (exec (.mmul 15 15 15) (blank.setReg 15 (rowsMat 2 [3, 2])))).reg 15 =
    .full (rowsMat 2 [1, 2]) := by decide

theorem test_mdim : (after (exec (.mdim 3 4 1) coded)).reg 3 = .full (vec 4 0) := by decide
theorem test_mdim_zero : (after (exec (.mdim 3 0 1) blank)).rsp = some ⟨.error .invalidParameter, 0⟩ := by decide

theorem test_mwrow : (after (exec (.mwrow 3 0 1) (blank.setReg 3 (vec 4 0)))).reg 3 = .full (vec 4 1) := by decide
theorem test_mwrow_too_wide :
    (after (exec (.mwrow 3 0 2) (blank.setReg 3 (vec 4 0)))).rsp = some ⟨.error .dimensionMismatch, 0⟩ := by decide

theorem test_mrrow : (after (exec (.mrrow 0 6) coded)).rsp = some ⟨.ok, 0x8⟩ := by decide
theorem test_mrrow_h : (after (exec (.mrrow 1 0) coded)).rsp = some ⟨.ok, 0x55⟩ := by decide

theorem test_mwcol : (after (exec (.mwcol 5 0 3) (blank.setReg 5 (vec 7 0)))).reg 5 = .full (vec 7 3) := by decide
theorem test_mwcol_empty : (after (exec (.mwcol 5 0 3) blank)).rsp = some ⟨.error .unwritten, 0⟩ := by decide

theorem test_mrcol : (after (exec (.mrcol 4 0) coded)).rsp = some ⟨.ok, 0x07⟩ := by decide
theorem test_mrcol_out_of_range : (after (exec (.mrcol 4 1) coded)).rsp = some ⟨.error .invalidParameter, 0⟩ := by decide

theorem test_mshape : (after (exec (.mshape 1) coded)).rsp = some ⟨.ok, 0x0703⟩ := by decide
theorem test_mshape_empty_sets_sticky : (after (exec (.mshape 9) coded)).stickyErr = true := by decide

theorem test_status_reset : (after (exec .status blank)).rsp = some ⟨.ok, 0x030000⟩ := by decide
theorem test_status_coded :
    (after (exec .status ((State.init ⟨.m4⟩).loadCode 3))).rsp = some ⟨.ok, 0x040700040003⟩ := by decide

/-! ### Witnesses -/

theorem blank_inv : blank.Inv := by decide
theorem coded_inv : coded.Inv := by decide

theorem witness_DecodeOfEncodeIsTheInstruction : (Instr.decode 15 3 0).wellFormed = true := by decide

theorem witness_EveryLegalWordIsAnEncoding :
    (decode ⟨0x00007564, 0⟩ = .instr (.decode 6 7 5)) ∧
    (decode ⟨0x00020038, 1⟩ = .instr (.mwrow 3 2 1) ∧ (Instr.mwrow 3 2 1).op = .mwrow) ∧
    (decode ⟨0x0000003A, 1⟩ = .instr (.mwcol 3 0 1) ∧ (Instr.mwcol 3 0 1).op = .mwcol) := by decide

theorem witness_NoWordMatchesTwoRows : Op.madd.hits 0x00004355 = true := by decide

theorem witness_IllegalWordsExactly :
    decode ⟨0x0000000E, 0⟩ = .illegal .reservedOpcode ∧ decode ⟨0x00000010, 0⟩ = .illegal .mustBeZero ∧
    decode ⟨0x00006564, 0⟩ = .illegal .sameDestination := by decide

theorem witness_OnlyRowAndColumnWritesReadDataIn :
    fieldOp 0x00060009 ≠ Op.mwrow.code ∧ fieldOp 0x00060009 ≠ Op.mwcol.code := by decide

theorem witness_PseudoInstructionsExpand :
    coded.Inv ∧ coded.codeM ≠ 0 ∧ 3 ≤ (3 : RegIdx).val ∧ coded.reg 4 = .full (vec 7 7) ∧
    (vec 7 7).rows = coded.codeN := by decide

theorem witness_StepPerformsTheDecodedCommand :
    let s := coded.offer ⟨0x00000342, 0⟩
    s.inbox = .command ⟨0x00000342, 0⟩ :: [] ∧ s.rsp = none ∧ decode ⟨0x00000342, 0⟩ = .instr (.encode 4 3) := by decide

theorem witness_IdleCoreHoldsItsState : State.reset.inbox = [] := by decide

theorem witness_BusyCoreTakesNoCommand :
    failed.rsp = some ⟨.error .unwritten, 0⟩ ∧
    ({ failed with inbox := [.command ⟨0, 0⟩] }.inbox = .command ⟨0, 0⟩ :: [] ∧
      { failed with inbox := [.commandCutByReset ⟨0, 0⟩] }.inbox = .commandCutByReset ⟨0, 0⟩ :: []) := by decide

theorem witness_TakingAResponseFreesThePort :
    let s := { failed with inbox := [.takeResponse] }
    s.rsp = some ⟨.error .unwritten, 0⟩ ∧ s.inbox = .takeResponse :: [] := by decide

theorem witness_ResetRestoresTheResetState : { failed with inbox := [.reset] }.inbox = .reset :: [] := by decide

theorem witness_ResetAbandonsACommand :
    let s := { coded with inbox := [.commandCutByReset ⟨0x00000342, 0⟩] }
    s.rsp = none ∧ s.inbox = .commandCutByReset ⟨0x00000342, 0⟩ :: [] := by decide

theorem witness_ResetLeavesTheHostAlone :
    (∃ t, step { failed with inbox := [.reset] } = .next t) ∧
    (∃ t, step { coded with inbox := [.commandCutByReset ⟨0x00000342, 0⟩] } = .next t) :=
  ⟨⟨_, rfl⟩, ⟨_, rfl⟩⟩

theorem witness_EveryCommandGetsOneResponse :
    let s := coded.offer ⟨0x0000000E, 0⟩
    s.rsp = none ∧ s.inbox = .command ⟨0x0000000E, 0⟩ :: [] := by decide

theorem witness_EveryStepKeepsTheInvariant :
    (coded.offer ⟨0x00007564, 0⟩).Inv ∧
    ∃ t, step (coded.offer ⟨0x00007564, 0⟩) = .next t ∧ t.reg 7 = .full (vec 7 7) :=
  ⟨by decide, _, next_after (by decide), by decide⟩

theorem witness_OnlyConstructWritesTheCode :
    (∀ m, Instr.encode 4 3 ≠ .construct m) ∧ exec (.encode 4 3) coded = .next (after (exec (.encode 4 3) coded)) :=
  ⟨by simp, next_after (by decide)⟩

theorem witness_CodeRegisterDestinationsAreRefused :
    ((Instr.mdim 0 4 1).wellFormed = true ∧ ∃ r ∈ (Instr.mdim 0 4 1).dests, r.val ≤ 2) ∧
    ((Instr.decode 6 2 5).wellFormed = true ∧ ∃ r ∈ (Instr.decode 6 2 5).dests, r.val ≤ 2) := by decide

theorem witness_FailingCommandWritesNothing :
    ∃ t, runCommand ⟨0x00000342, 0⟩ blank = .next t ∧ t.rsp = some ⟨.error .notConstructed, 0⟩ :=
  ⟨_, next_after (by decide), by decide⟩

theorem witness_StickyErrRecordsFailures :
    (∃ t, runCommand ⟨0x0000000E, 0⟩ coded = .next t) ∧
    (failed.stickyErr = true ∧ ∃ t, step (failed.offer ⟨0, 0⟩) = .next t) :=
  ⟨⟨_, rfl⟩, by decide, ⟨_, rfl⟩⟩

theorem witness_OnlyResetRemovesTheCode :
    let s := failed.offer ⟨0x00020001, 0⟩
    (step s = .next (after (step s))) ∧ (∀ rest, s.inbox ≠ .reset :: rest) ∧
    (∀ c rest, s.inbox ≠ .commandCutByReset c :: rest) ∧ s.stickyErr = true ∧ s.codeM ≠ 0 ∧ s.reg 3 ≠ .empty := by
  refine ⟨next_after (by decide), ?_, ?_, by decide, by decide, by decide⟩ <;> simp [State.offer]

theorem witness_ResultIsTheFirstFailingCheck :
    decode ⟨0x0000000E, 0⟩ = .illegal .reservedOpcode ∧ coded.Inv := by decide

theorem witness_ErrorsStayInTheirTable :
    decode ⟨0x00000342, 0⟩ = .instr (.encode 4 3) ∧
    ∃ t, runCommand ⟨0x00000342, 0⟩ blank = .next t ∧ t.rsp = some ⟨.error .notConstructed, 0⟩ :=
  ⟨by decide, _, next_after (by decide), by decide⟩

theorem witness_NopDoesNothing : fieldOp 0x00000010 = 0x0 ∧ (0x00000010 : CmdWord) ≠ 0x00000000 := by decide

theorem witness_MdimMakesAZeroMatrix :
    (3 ≤ (3 : RegIdx).val ∧ 1 ≤ (1 : BitVec 8).toNat ∧ (1 : BitVec 8).toNat ≤ nMax blank.cfg) ∧
    (3 ≤ (15 : RegIdx).val ∧ 1 ≤ (7 : BitVec 8).toNat ∧ (7 : BitVec 8).toNat ≤ nMax blank.cfg) := by decide

theorem witness_MwrowReplacesOneRow :
    3 ≤ (5 : RegIdx).val ∧ coded.reg 5 = .full (vec 7 3) ∧ (6 : BitVec 8).toNat < (vec 7 3).rows ∧
    ∀ j, (vec 7 3).cols ≤ j → (1 : DataWord).getLsbD j = false :=
  ⟨by decide, by decide, by decide, fitsWidth_iff.mp (by decide)⟩

theorem witness_MwcolReplacesOneColumn :
    3 ≤ (5 : RegIdx).val ∧ coded.reg 5 = .full (vec 7 3) ∧ (0 : BitVec 8).toNat < (vec 7 3).cols ∧
    ∀ i, (vec 7 3).rows ≤ i → (0x7F : DataWord).getLsbD i = false :=
  ⟨by decide, by decide, by decide, fitsWidth_iff.mp (by decide)⟩

theorem witness_MrrowReadsOneRow : coded.reg 0 = .full (gMat 3) ∧ (6 : BitVec 8).toNat < (gMat 3).rows := by decide

theorem witness_MrcolReadsOneColumn : coded.reg 1 = .full (hMat 3) ∧ (6 : BitVec 8).toNat < (hMat 3).cols := by decide

theorem witness_MshapeReadsTheSize : coded.Inv ∧ coded.reg 1 = .full (hMat 3) := by decide

theorem witness_StatusReadsTheControlState :
    failed.Inv ∧ fieldOp 0x0000100D = 0xD ∧ (0x0000100D : CmdWord) ≠ 0x0000000D := by decide

theorem witness_WrittenRowsAndColumnsReadBack :
    3 ≤ (5 : RegIdx).val ∧ coded.reg 5 = .full (vec 7 3) ∧
    ((6 : BitVec 8).toNat < (vec 7 3).rows ∧ ∀ j, (vec 7 3).cols ≤ j → (1 : DataWord).getLsbD j = false) ∧
    ((0 : BitVec 8).toNat < (vec 7 3).cols ∧ ∀ i, (vec 7 3).rows ≤ i → (1 : DataWord).getLsbD i = false) :=
  ⟨by decide, by decide, ⟨by decide, fitsWidth_iff.mp (by decide)⟩, by decide, fitsWidth_iff.mp (by decide)⟩

theorem witness_VloadLoadsAVector :
    3 ≤ (3 : RegIdx).val ∧ 1 ≤ (7 : BitVec 8).toNat ∧ (7 : BitVec 8).toNat ≤ nMax blank.cfg ∧
    ∀ i, (7 : BitVec 8).toNat ≤ i → (0x7F : DataWord).getLsbD i = false :=
  ⟨by decide, by decide, by decide, fitsWidth_iff.mp (by decide)⟩

theorem witness_MaddAddsElementwise :
    3 ≤ (4 : RegIdx).val ∧ coded.reg 4 = .full (vec 7 7) ∧ coded.reg 5 = .full (vec 7 3) ∧
    (vec 7 7).rows = (vec 7 3).rows ∧ (vec 7 7).cols = (vec 7 3).cols := by decide

theorem witness_MmulMultiplies :
    3 ≤ (4 : RegIdx).val ∧ coded.reg 1 = .full (hMat 3) ∧ coded.reg 4 = .full (vec 7 7) ∧
    (hMat 3).cols = (vec 7 7).rows := by decide

theorem witness_AluAlgebraLaws :
    (∃ A B C : Mat, A.rows = B.rows ∧ A.cols = B.cols ∧ B.rows = C.rows ∧ B.cols = C.cols) ∧
    ((rMat 3).cols = (gMat 3).rows ∧ (gMat 3).cols = (vec 4 1).rows) ∧
    ((hMat 3).cols = (vec 7 7).rows ∧ (vec 7 7).rows = (vec 7 3).rows ∧ (vec 7 7).cols = (vec 7 3).cols) ∧
    ((rMat 3).rows = (rowsMat 7 [1, 2, 3, 4]).rows ∧ (rMat 3).cols = (rowsMat 7 [1, 2, 3, 4]).cols ∧
      (rowsMat 7 [1, 2, 3, 4]).cols = (vec 7 7).rows) ∧
    (1 ≤ 1 ∧ 1 ≤ (hMat 3).cols) ∧ (1 ≤ 7 ∧ 7 ≤ (hMat 3).cols) :=
  ⟨⟨vec 7 7, vec 7 3, vec 7 1, by decide⟩, by decide⟩

theorem witness_ConstructLoadsTheCode :
    (2 ≤ (2 : BitVec 16).toNat ∧ (2 : BitVec 16).toNat ≤ blank.cfg.mMax.toNat) ∧
    (2 ≤ (3 : BitVec 16).toNat ∧ (3 : BitVec 16).toNat ≤ blank.cfg.mMax.toNat) := by decide

theorem witness_DataPositionsAreNotPowersOfTwo : 1 ≤ 1 ∧ 1 < 4 ∧ 4 ≤ wordLen 3 := by decide

theorem witness_CodeMatrixElements :
    (2 < 3 ∧ 1 ≤ 7 ∧ 7 ≤ codeLen 3) ∧ (1 ≤ 1 ∧ 1 ≤ wordLen 3) ∧ (1 ≤ 4 ∧ 4 ≤ wordLen 3) := by decide

theorem witness_ParityCheckAnnihilatesGenerator :
    2 ≤ 2 ∧ coded.Inv ∧ coded.codeM ≠ 0 ∧ 3 ≤ (3 : RegIdx).val := by decide

theorem witness_ExtractionInvertsGenerator :
    2 ≤ 2 ∧ coded.Inv ∧ coded.codeM ≠ 0 ∧ 3 ≤ (15 : RegIdx).val := by decide

theorem witness_ColumnsOfHReadAsTheirPosition : (1 ≤ 1 ∧ 1 ≤ codeLen 3) ∧ (1 ≤ 7 ∧ 7 ≤ codeLen 3) := by decide

theorem witness_EncodeGivesTheCodeword :
    coded.Inv ∧ coded.codeM ≠ 0 ∧ 3 ≤ (3 : RegIdx).val ∧ coded.reg 3 = .full (vec 4 1) ∧ (vec 4 1).rows = coded.codeK ∧
    (vec 4 1).cols = 1 := by decide

theorem witness_CodewordsAreInTheNullSpaceOfH :
    (2 ≤ 3 ∧ (vec 4 1).rows = wordLen 3 ∧ (vec 4 1).cols = 1) ∧
    (coded.Inv ∧ coded.reg 3 = .full (vec 4 1) ∧ exec (.encode 6 3) coded = .next (after (exec (.encode 6 3) coded)) ∧
      (after (exec (.encode 6 3) coded)).rsp = some ⟨.ok, 0⟩ ∧
      (after (exec (.encode 6 3) coded)).reg 6 = .full (vec 7 7)) :=
  ⟨by decide, by decide, by decide, next_after (by decide), by decide, by decide⟩

theorem witness_InjectFlipsOnePosition :
    coded.codeM ≠ 0 ∧ 3 ≤ (6 : RegIdx).val ∧ coded.reg 4 = .full (vec 7 7) ∧
    (1 ≤ (1 : BitVec 16).toNat ∧ (1 : BitVec 16).toNat ≤ coded.codeN) ∧
    (1 ≤ (7 : BitVec 16).toNat ∧ (7 : BitVec 16).toNat ≤ coded.codeN) ∧
    (vec 7 7).rows = coded.codeN ∧ (vec 7 7).cols = 1 := by decide

theorem witness_InjectedSyndromeIsThePosition :
    (vec 7 7).rows = codeLen 3 ∧ (vec 7 7).cols = 1 ∧ mmul (hMat 3) (vec 7 7) = Mat.zero 3 1 ∧
    (1 ≤ 1 ∧ 1 ≤ codeLen 3) ∧ (1 ≤ 7 ∧ 7 ≤ codeLen 3) := by decide

theorem witness_DecodeTakesItsFiveSteps :
    coded.Inv ∧ coded.codeM ≠ 0 ∧ (6 : RegIdx) ≠ 7 ∧ 3 ≤ (6 : RegIdx).val ∧ 3 ≤ (7 : RegIdx).val ∧
    coded.reg 5 = .full (vec 7 3) ∧ (vec 7 3).rows = coded.codeN ∧ (vec 7 3).cols = 1 := by decide

theorem witness_SingleErrorIsCorrected :
    coded.Inv ∧ coded.codeM ≠ 0 ∧ 3 ≤ (4 : RegIdx).val ∧ 3 ≤ (5 : RegIdx).val ∧ 3 ≤ (6 : RegIdx).val ∧
    3 ≤ (7 : RegIdx).val ∧ (6 : RegIdx) ≠ 7 ∧ coded.reg 3 = .full (vec 4 1) ∧ (vec 4 1).rows = coded.codeK ∧
    (vec 4 1).cols = 1 ∧ (1 ≤ (1 : BitVec 16).toNat ∧ (1 : BitVec 16).toNat ≤ coded.codeN) ∧
    (1 ≤ (7 : BitVec 16).toNat ∧ (7 : BitVec 16).toNat ≤ coded.codeN) := by decide

theorem witness_CodewordDecodesUnchanged :
    coded.Inv ∧ coded.codeM ≠ 0 ∧ 3 ≤ (6 : RegIdx).val ∧ 3 ≤ (7 : RegIdx).val ∧ (6 : RegIdx) ≠ 7 ∧
    (coded.reg 4 = .full (vec 7 7) ∧ (vec 7 7).rows = coded.codeN ∧ (vec 7 7).cols = 1 ∧
      mmul (hMat coded.codeM.toNat) (vec 7 7) = Mat.zero coded.codeM.toNat 1) ∧
    (3 ≤ (4 : RegIdx).val ∧ coded.reg 3 = .full (vec 4 1) ∧ (vec 4 1).rows = coded.codeK ∧ (vec 4 1).cols = 1) := by decide

theorem witness_DoubleErrorIsMiscorrectedSilently :
    let s := coded.setReg 8 (vec 7 4)
    s.Inv ∧ s.codeM ≠ 0 ∧ 3 ≤ (6 : RegIdx).val ∧ 3 ≤ (7 : RegIdx).val ∧ (6 : RegIdx) ≠ 7 ∧ (vec 7 7).rows = s.codeN ∧
    (vec 7 7).cols = 1 ∧ mmul (hMat s.codeM.toNat) (vec 7 7) = Mat.zero s.codeM.toNat 1 ∧ 1 ≤ 1 ∧ 1 ≤ s.codeN ∧ 1 ≤ 2 ∧
    2 ≤ s.codeN ∧ 1 ≠ 2 ∧ s.reg 8 = .full (madd (madd (vec 7 7) (unitVec s.codeN 1)) (unitVec s.codeN 2)) := by decide

theorem witness_ParityPositionFlipKeepsTheWord :
    0 < 3 ∧ 2 < 3 ∧ (vec 7 3).rows = codeLen 3 ∧ (vec 7 3).cols = 1 := by decide

theorem witness_WritingCommandsAreIdempotent :
    ∀ i ∈ [Instr.mdim 3 7 1, .mwrow 3 3 1, .mwcol 3 0 0xF, .construct 3],
      (i.op = .mdim ∨ i.op = .mwrow ∨ i.op = .mwcol ∨ i.op = .construct) ∧
      exec i coded = .next (after (exec i coded)) ∧ (after (exec i coded)).rsp.map (·.result) = some .ok := by
  have h : ∀ i ∈ [Instr.mdim 3 7 1, .mwrow 3 3 1, .mwcol 3 0 0xF, .construct 3],
      (i.op = .mdim ∨ i.op = .mwrow ∨ i.op = .mwcol ∨ i.op = .construct) ∧
      goesOn (exec i coded) = true ∧ (after (exec i coded)).rsp.map (·.result) = some .ok := by decide
  exact fun i hi => ⟨(h i hi).1, next_after (h i hi).2.1, (h i hi).2.2⟩

theorem witness_IdempotentWithoutSharedRegisters :
    ∀ i ∈ [Instr.madd 6 4 5, .mmul 6 1 4, .encode 6 3, .inject 6 4 7, .decode 6 7 5],
      (i.op = .madd ∨ i.op = .mmul ∨ i.op = .encode ∨ i.op = .inject ∨ i.op = .decode) ∧
      (∀ r ∈ i.sources, r ∉ i.dests) ∧ exec i coded = .next (after (exec i coded)) ∧
      (after (exec i coded)).rsp.map (·.result) = some .ok := by
  have h : ∀ i ∈ [Instr.madd 6 4 5, .mmul 6 1 4, .encode 6 3, .inject 6 4 7, .decode 6 7 5],
      (i.op = .madd ∨ i.op = .mmul ∨ i.op = .encode ∨ i.op = .inject ∨ i.op = .decode) ∧
      (∀ r ∈ i.sources, r ∉ i.dests) ∧ goesOn (exec i coded) = true ∧
      (after (exec i coded)).rsp.map (·.result) = some .ok := by decide
  exact fun i hi => ⟨(h i hi).1, (h i hi).2.1, next_after (h i hi).2.2.1, (h i hi).2.2.2⟩

theorem witness_InjectInPlaceTwiceRestores :
    exec (.inject 4 4 7) coded = .next (after (exec (.inject 4 4 7) coded)) ∧
    (after (exec (.inject 4 4 7) coded)).rsp = some ⟨.ok, 0⟩ :=
  ⟨next_after (by decide), by decide⟩

end Sys2Proof.Tests
end

section
/-! PROOFS. How every command and every step ends, said once for the whole instruction set and the whole port
(`10_state.md` R34, R35; `60_exceptions.md` R263). -/

namespace Sys2Proof.Machine

/-! ### The invariant reads registers, CODE_M and the configuration only -/

/-- A state with the same registers, CODE_M and configuration meets the invariant too. -/
theorem State.Inv.congr {s t : State} (hs : s.Inv) (hreg : ∀ r, t.reg r = s.reg r) (hcodeM : t.codeM = s.codeM)
    (hcfg : t.cfg = s.cfg) : t.Inv := by
  obtain ⟨hfits, hcode⟩ := hs
  simp only [State.Inv, State.codeConsistent, hreg, hcodeM, hcfg]
  exact ⟨hfits, hcode⟩

theorem State.init_inv (cfg : Config) : (State.init cfg).Inv :=
  ⟨fun r => by rw [State.init_reg]; rfl,
    .inl ⟨State.init_codeM cfg, State.init_reg cfg 0, State.init_reg cfg 1, State.init_reg cfg 2⟩⟩

theorem State.applyReset_inv (s : State) : s.applyReset.Inv :=
  (State.init_inv s.cfg).congr (fun _ => rfl) rfl rfl

/-! ### Which matrices fit a register -/

theorem State.Inv.fits_of_reg {s : State} (hs : s.Inv) {r : RegIdx} {A : Mat} (hr : s.reg r = .full A) :
    (MatReg.full A).fits (nMax s.cfg) = true := hr ▸ hs.1 r

/-- Whether a matrix fits depends on its size only. -/
theorem fits_of_size {A B : Mat} {n : Nat} (hrows : B.rows = A.rows) (hcols : B.cols = A.cols)
    (hA : (MatReg.full A).fits n = true) : (MatReg.full B).fits n = true := by
  rw [MatReg.fits_full_iff] at hA ⊢
  rwa [hrows, hcols]

/-- A product is no larger than its operands (`40_gf2_alu.md` R105). -/
theorem mmul_fits {A B : Mat} {n : Nat} (hA : (MatReg.full A).fits n = true) (hB : (MatReg.full B).fits n = true) :
    (MatReg.full (mmul A B)).fits n = true := by
  rw [MatReg.fits_full_iff] at hA hB ⊢
  exact ⟨hA.1, hA.2.1, hB.2.2⟩

/-! ### The code that CONSTRUCT loads fits the register file (`41_code_construction.md` R142) -/

theorem wordLen_le_codeLen (m : Nat) : wordLen m ≤ codeLen m := Nat.sub_le _ _

theorem codeMats_fit {m M : Nat} (h2 : 2 ≤ m) (hM : m ≤ M) :
    (MatReg.full (gMat m)).fits (codeLen M) = true ∧ (MatReg.full (hMat m)).fits (codeLen M) = true ∧
    (MatReg.full (rMat m)).fits (codeLen M) = true := by
  have hk := wordLen_pos h2
  have hkn := wordLen_le_codeLen m
  have hmn := le_codeLen m
  have hn := codeLen_mono hM
  simp only [MatReg.fits_full_iff, gMat_rows, gMat_cols, hMat_rows, hMat_cols, rMat_rows, rMat_cols]
  omega

/-- CODE_M holds every legal m (`10_state.md` R27). -/
theorem State.loadCode_codeM_toNat {s : State} {m : Nat} (hM : m ≤ s.cfg.mMax.toNat) :
    (s.loadCode m).codeM.toNat = m := by
  have h8 := mMax_le_eight s.cfg.mMax
  rw [State.loadCode_codeM, BitVec.toNat_ofNat]
  omega

/-- Loading a legal code keeps the invariant, whatever code was there before. -/
theorem State.Inv.loadCode {s : State} (hs : s.Inv) {m : Nat} (h2 : 2 ≤ m) (hM : m ≤ s.cfg.mMax.toNat) :
    (s.loadCode m).Inv := by
  obtain ⟨hG, hH, hR⟩ := codeMats_fit h2 hM
  refine ⟨fun r => ?_, .inr ?_⟩
  · rw [State.loadCode_reg, State.loadCode_cfg, nMax_eq_codeLen]
    split_ifs
    · exact hG
    · exact hH
    · exact hR
    · exact hs.1 r
  · rw [State.loadCode_codeM_toNat hM]
    exact ⟨h2, hM, by simp [State.loadCode_reg]⟩

/-! ### How an instruction ends -/

/-- Every way an instruction can end from `s`: it raises an error; or it is CONSTRUCT and loads the code of a legal m; or
it completes, having written no register but its destinations, which are writable and hold a matrix, of legal size where
the invariant held before. -/
inductive InstrEnds (i : Instr) (s : State) : State → Prop
  | raised (e : CmdError) : InstrEnds i s (s.raise e)
  | constructed (m : BitVec 16) (hi : i = .construct m) (h2 : 2 ≤ m.toNat) (hM : m.toNat ≤ s.cfg.mMax.toNat) :
    InstrEnds i s ((s.loadCode m.toNat).respond (constructWord m.toNat))
  | completed {t : State} {out : DataWord} (h : Completed s t i.dests out) (hwritable : ∀ r ∈ i.dests, 3 ≤ r.val)
    (hfull : ∀ r ∈ i.dests, ∃ A, t.reg r = .full A ∧ (s.Inv → (MatReg.full A).fits (nMax s.cfg) = true)) :
    InstrEnds i s t

namespace InstrEnds
variable {i : Instr} {s t : State}

/-- A command without a destination that answers `out`. -/
theorem of_respond (out : DataWord) (hi : i.dests = []) : InstrEnds i s (s.respond out) :=
  .completed (hi ▸ completed_respond_self s out) (by simp [hi]) (by simp [hi])

/-- A command that writes its one destination. -/
theorem of_setReg {rd : RegIdx} {A : Mat} (out : DataWord) (hi : i.dests = [rd]) (hrd : 3 ≤ rd.val)
    (hA : s.Inv → (MatReg.full A).fits (nMax s.cfg) = true) : InstrEnds i s ((s.setReg rd A).respond out) :=
  .completed (hi ▸ completed_respond_setReg s rd A out) (by simpa [hi] using hrd) (by simpa [hi] using hA)

/-- A command that writes its two destinations. -/
theorem of_setReg_setReg {rd rc : RegIdx} {A B : Mat} (out : DataWord) (hi : i.dests = [rd, rc]) (hne : rd ≠ rc)
    (hrd : 3 ≤ rd.val) (hrc : 3 ≤ rc.val) (hA : s.Inv → (MatReg.full A).fits (nMax s.cfg) = true)
    (hB : s.Inv → (MatReg.full B).fits (nMax s.cfg) = true) :
    InstrEnds i s (((s.setReg rd A).setReg rc B).respond out) := by
  refine .completed (out := out) (.of_respond (fun r hr => ?_) rfl rfl rfl rfl rfl) ?_ ?_
  · obtain ⟨hrd', hrc'⟩ : r ≠ rd ∧ r ≠ rc := by simpa [hi] using hr
    rw [State.reg_setReg_ne _ _ hrc', State.reg_setReg_ne _ _ hrd']
  · simpa [hi] using ⟨hrd, hrc⟩
  · simp only [hi, List.forall_mem_cons, List.not_mem_nil, false_implies, implies_true, and_true]
    have hregA : ((s.setReg rd A).setReg rc B).reg rd = .full A := by
      rw [State.reg_setReg_ne _ _ hne, State.reg_setReg_self]
    exact ⟨⟨A, hregA, hA⟩, B, State.reg_setReg_self .., hB⟩

end InstrEnds

/-- Every instruction, in every state, answers a next state (`10_state.md` R34). -/
theorem exec_ends (i : Instr) (s : State) : ∃ t, exec i s = .next t ∧ InstrEnds i s t := by
  cases i with
  | nop => exact ⟨_, execNop_eq s, .of_respond _ rfl⟩
  | status => exact ⟨_, execStatus_eq s, .of_respond _ rfl⟩
  | construct m =>
    rcases execConstruct_cases m s with ⟨e, h⟩ | ⟨⟨h2, hM⟩, h⟩
    · exact ⟨_, h, .raised e⟩
    · exact ⟨_, h, .constructed m rfl h2 hM⟩
  | encode rd rs1 =>
    rcases execEncode_cases rd rs1 s with ⟨e, h⟩ | ⟨w, G, hrd, -, hw, hG, -, -, h⟩
    · exact ⟨_, h, .raised e⟩
    · exact ⟨_, h, .of_setReg _ rfl hrd fun hs => mmul_fits (hs.fits_of_reg hG) (hs.fits_of_reg hw)⟩
  | inject rd rs1 pos =>
    rcases execInject_cases rd rs1 pos s with ⟨e, h⟩ | ⟨c, hrd, -, hc, -, -, h⟩
    · exact ⟨_, h, .raised e⟩
    · exact ⟨_, h, .of_setReg _ rfl hrd fun hs => fits_of_size (A := c) rfl rfl (hs.fits_of_reg hc)⟩
  | decode rd rc rs1 =>
    rcases execDecode_cases rd rc rs1 s with ⟨e, h⟩ | ⟨x, H, R, hne, hrd, hrc, -, hx, -, hR, -, -, -, h⟩
    · exact ⟨_, h, .raised e⟩
    · have hy (hs : s.Inv) : (MatReg.full (correct s.codeN x (toInt (mmul H x)))).fits (nMax s.cfg) = true :=
        fits_of_size (correct_rows ..) (correct_cols ..) (hs.fits_of_reg hx)
      exact ⟨_, h, .of_setReg_setReg _ rfl hne hrd hrc (fun hs => mmul_fits (hs.fits_of_reg hR) (hy hs)) hy⟩
  | madd rd rs1 rs2 =>
    rcases execMadd_cases rd rs1 rs2 s with ⟨e, h⟩ | ⟨A, B, hrd, hA, -, -, h⟩
    · exact ⟨_, h, .raised e⟩
    · exact ⟨_, h, .of_setReg _ rfl hrd fun hs => fits_of_size (A := A) rfl rfl (hs.fits_of_reg hA)⟩
  | mmul rd rs1 rs2 =>
    rcases execMmul_cases rd rs1 rs2 s with ⟨e, h⟩ | ⟨A, B, hrd, hA, hB, -, h⟩
    · exact ⟨_, h, .raised e⟩
    · exact ⟨_, h, .of_setReg _ rfl hrd fun hs => mmul_fits (hs.fits_of_reg hA) (hs.fits_of_reg hB)⟩
  | mdim rd rows cols =>
    rcases execMdim_cases rd rows cols s with ⟨e, h⟩ | ⟨hrd, ⟨hr1, hrN⟩, ⟨hc1, hcN⟩, h⟩
    · exact ⟨_, h, .raised e⟩
    · exact ⟨_, h, .of_setReg _ rfl hrd fun _ => MatReg.fits_full_iff.mpr ⟨hr1, hrN, hc1, hcN⟩⟩
  | mwrow rd row data =>
    rcases execMwrow_cases rd row data s with ⟨e, h⟩ | ⟨A, hrd, hA, -, -, h⟩
    · exact ⟨_, h, .raised e⟩
    · exact ⟨_, h, .of_setReg _ rfl hrd fun hs => fits_of_size (A := A) rfl rfl (hs.fits_of_reg hA)⟩
  | mrrow rs1 row =>
    rcases execMrrow_cases rs1 row s with ⟨e, h⟩ | ⟨A, -, -, h⟩
    · exact ⟨_, h, .raised e⟩
    · exact ⟨_, h, .of_respond _ rfl⟩
  | mwcol rd col data =>
    rcases execMwcol_cases rd col data s with ⟨e, h⟩ | ⟨A, hrd, hA, -, -, h⟩
    · exact ⟨_, h, .raised e⟩
    · exact ⟨_, h, .of_setReg _ rfl hrd fun hs => fits_of_size (A := A) rfl rfl (hs.fits_of_reg hA)⟩
  | mrcol rs1 col =>
    rcases execMrcol_cases rs1 col s with ⟨e, h⟩ | ⟨A, -, -, h⟩
    · exact ⟨_, h, .raised e⟩
    · exact ⟨_, h, .of_respond _ rfl⟩
  | mshape rs1 =>
    rcases execMshape_cases rs1 s with ⟨e, h⟩ | ⟨A, -, h⟩
    · exact ⟨_, h, .raised e⟩
    · exact ⟨_, h, .of_respond _ rfl⟩

theorem InstrEnds.of_exec {i : Instr} {s t : State} (h : exec i s = .next t) : InstrEnds i s t := by
  obtain ⟨t', h', hends⟩ := exec_ends i s
  cases h.symm.trans h'
  exact hends

/-- Every command word answers a next state and ends in one of the ways an instruction ends: an illegal word raises, as
any instruction may. -/
theorem runCommand_ends (c : Command) (s : State) : ∃ i t, runCommand c s = .next t ∧ InstrEnds i s t := by
  cases h : decode c with
  | instr i => exact ⟨i, runCommand_instr h s ▸ exec_ends i s⟩
  | illegal why => exact ⟨.nop, _, runCommand_illegal h s, .raised _⟩

theorem InstrEnds.of_runCommand {c : Command} {s t : State} (h : runCommand c s = .next t) :
    ∃ i, InstrEnds i s t := by
  obtain ⟨i, t', h', hends⟩ := runCommand_ends c s
  cases h.symm.trans h'
  exact ⟨i, hends⟩

/-! ### What follows from every way to end -/

/-- A command whose destinations are writable leaves the code registers. -/
theorem Completed.codeReg {s t : State} {written : List RegIdx} {out : DataWord} (h : Completed s t written out)
    (hwritable : ∀ r ∈ written, 3 ≤ r.val) {r : RegIdx} (hr : r.val ≤ 2) : t.reg r = s.reg r :=
  h.reg r fun hmem => absurd (hwritable r hmem) (by omega)

namespace InstrEnds
variable {i : Instr} {s t : State}

/-- No command writes the configuration or anything of the host but the response (`10_state.md` R35). -/
theorem host_unchanged (h : InstrEnds i s t) : t.cfg = s.cfg ∧ t.inbox = s.inbox ∧ t.taken = s.taken := by
  cases h with
  | raised e => exact ⟨rfl, rfl, rfl⟩
  | constructed m => exact ⟨rfl, rfl, rfl⟩
  | completed h => exact ⟨h.cfg, h.inbox, h.taken⟩

/-- One response waits, and STICKY_ERR is set exactly when its result is not OK (`10_state.md` R29). -/
theorem rsp_stickyErr (h : InstrEnds i s t) :
    ∃ r, t.rsp = some r ∧ t.stickyErr = (s.stickyErr || decide (r.result ≠ .ok)) := by
  cases h with
  | raised e => exact ⟨_, rfl, by simp⟩
  | constructed m => exact ⟨_, rfl, by simp⟩
  | completed h => exact ⟨_, h.rsp, by simp [h.stickyErr]⟩

theorem stickyErr_of_set (h : InstrEnds i s t) (hs : s.stickyErr = true) : t.stickyErr = true := by
  obtain ⟨r, -, hsticky⟩ := h.rsp_stickyErr
  rw [hsticky, hs, Bool.true_or]

/-- Only CONSTRUCT writes CODE_M (`10_state.md` R27). -/
theorem codeM (h : InstrEnds i s t) (hi : ∀ m, i ≠ .construct m) : t.codeM = s.codeM := by
  cases h with
  | raised e => rfl
  | constructed m hi' => exact absurd hi' (hi m)
  | completed h => exact h.codeM

/-- Only CONSTRUCT writes a code register (`10_state.md` R23). -/
theorem codeReg (h : InstrEnds i s t) (hi : ∀ m, i ≠ .construct m) {r : RegIdx} (hr : r.val ≤ 2) :
    t.reg r = s.reg r := by
  cases h with
  | raised e => rfl
  | constructed m hi' => exact absurd hi' (hi m)
  | completed h hwritable => exact h.codeReg hwritable hr

/-- Every command keeps the invariant (`10_state.md` R22, R26). -/
theorem inv (h : InstrEnds i s t) (hs : s.Inv) : t.Inv := by
  cases h with
  | raised e => exact hs.congr (fun _ => rfl) rfl rfl
  | constructed m _ h2 hM => exact (hs.loadCode h2 hM).congr (fun _ => rfl) rfl rfl
  | completed h hwritable hfull =>
    have hcode {r : RegIdx} (hr : r.val ≤ 2) : t.reg r = s.reg r := h.codeReg hwritable hr
    refine ⟨fun r => ?_, ?_⟩
    · rw [h.cfg]
      by_cases hr : r ∈ i.dests
      · obtain ⟨A, hA, hfits⟩ := hfull r hr
        exact hA ▸ hfits hs
      · exact h.reg r hr ▸ hs.1 r
    · simp only [State.codeConsistent, h.codeM, h.cfg, hcode (r := 0) (by decide), hcode (r := 1) (by decide),
        hcode (r := 2) (by decide)]
      exact hs.2

end InstrEnds

/-! ### How a step ends -/

/-- An action of the host that the core takes is a command, one of the two resets, or taking a response. -/
theorem act_cases {a : HostAction} {s t : State} (h : act a s = .next t) :
    (∃ c, a = .command c ∧ runCommand c s = .next t) ∨
    ((a = .reset ∨ ∃ c, a = .commandCutByReset c) ∧ t = s.applyReset) ∨
    (a = .takeResponse ∧ t = s.takeResponse) := by
  cases a with
  | command c =>
    simp only [act] at h
    split at h
    · exact .inl ⟨c, rfl, h⟩
    · cases h
  | commandCutByReset c =>
    simp only [act] at h
    split at h
    · cases h
      exact .inr (.inl ⟨.inr ⟨c, rfl⟩, rfl⟩)
    · cases h
  | takeResponse =>
    cases h
    exact .inr (.inr ⟨rfl, rfl⟩)
  | reset =>
    cases h
    exact .inr (.inl ⟨.inl rfl, rfl⟩)
  | powerLoss => cases h

/-- A step is idle or takes the host's next action. -/
theorem step_cases {s t : State} (h : step s = .next t) :
    (s.inbox = [] ∧ t = s) ∨ ∃ a rest, s.inbox = a :: rest ∧ act a { s with inbox := rest } = .next t := by
  cases hin : s.inbox with
  | nil =>
    rw [step_nil hin] at h
    cases h
    exact .inl ⟨rfl, rfl⟩
  | cons a rest => exact .inr ⟨a, rest, rfl, step_cons hin ▸ h⟩

/-- A free port takes the command the host sends. -/
theorem step_command {s : State} {c : Command} {rest : List HostAction} (hin : s.inbox = .command c :: rest)
    (hrsp : s.rsp = none) : step s = runCommand c { s with inbox := rest } :=
  (step_cons hin).trans (act_command c hrsp)

theorem act_keeps_inv {a : HostAction} {s t : State} (hs : s.Inv) (h : act a s = .next t) : t.Inv := by
  obtain ⟨c, -, hrun⟩ | ⟨-, rfl⟩ | ⟨-, rfl⟩ := act_cases h
  · obtain ⟨i, hends⟩ := InstrEnds.of_runCommand hrun
    exact hends.inv hs
  · exact s.applyReset_inv
  · exact hs.congr (fun _ => rfl) rfl rfl

theorem step_keeps_inv {s t : State} (hs : s.Inv) (h : step s = .next t) : t.Inv := by
  obtain ⟨-, rfl⟩ | ⟨a, rest, -, hact⟩ := step_cases h
  · exact hs
  · exact act_keeps_inv (s := { s with inbox := rest }) hs hact

end Sys2Proof.Machine
end

section
/-! PROOFS. What a command reads: DATA_IN in two rows only, its destinations before anything else, and STICKY_ERR nowhere
but in STATUS (`10_state.md` R23, R30, R31). -/

namespace Sys2Proof

/-! ### DATA_IN (`10_state.md` R31) -/

theorem fieldOp_and (w v : CmdWord) : fieldOp (w &&& v) = fieldOp w &&& fieldOp v := BitVec.extractLsb'_and ..

theorem Op.fieldOp_maskWord (o : Op) : fieldOp o.maskWord = BitVec.allOnes 4 := by cases o <;> rfl

theorem Op.fieldOp_matchWord (o : Op) : fieldOp o.matchWord = o.code := by cases o <;> rfl

/-- A word that matches a row has the row's opcode (`30_encoding.md` R74). -/
theorem Op.fieldOp_of_hits {o : Op} {w : CmdWord} (h : o.hits w = true) : fieldOp w = o.code := by
  have hmatch : w &&& o.maskWord = o.matchWord := by simpa [Op.hits] using h
  calc fieldOp w = fieldOp (w &&& o.maskWord) := by rw [fieldOp_and, o.fieldOp_maskWord, BitVec.and_allOnes]
    _ = o.code := by rw [hmatch, o.fieldOp_matchWord]

theorem fieldOp_of_opOf {w : CmdWord} {o : Op} (h : opOf w = some o) : fieldOp w = o.code :=
  Op.fieldOp_of_hits (List.find?_some (p := fun o' : Op => o'.hits w) h)

/-- Only the rows of MWROW and MWCOL put DATA_IN into the instruction. -/
theorem Op.build_dataIn {o : Op} (hrow : o ≠ .mwrow) (hcol : o ≠ .mwcol) (w : CmdWord) (d d' : DataWord) :
    o.build ⟨w, d⟩ = o.build ⟨w, d'⟩ := by
  cases o with
  | mwrow => exact absurd rfl hrow
  | mwcol => exact absurd rfl hcol
  | _ => rfl

theorem decode_dataIn {w : CmdWord} (hrow : fieldOp w ≠ Op.mwrow.code) (hcol : fieldOp w ≠ Op.mwcol.code)
    (d d' : DataWord) : decode ⟨w, d⟩ = decode ⟨w, d'⟩ := by
  cases h : opOf w with
  | none => simp only [decode, h]
  | some o =>
    have hop := fieldOp_of_opOf h
    have hbuild : o.build ⟨w, d⟩ = o.build ⟨w, d'⟩ :=
      Op.build_dataIn (fun ho => hrow (ho ▸ hop)) (fun ho => hcol (ho ▸ hop)) w d d'
    simp only [decode, h, hbuild]

end Sys2Proof

namespace Sys2Proof.Machine

/-! ### The destination check comes first (`10_state.md` R23, `60_exceptions.md` R264) -/

theorem perform_readOnly {rd : RegIdx} (h : rd.val ≤ 2) (s : State)
    (rest : Unit → Except CmdError (State × DataWord)) :
    perform s (checkWritable rd >>= rest) = .next (s.raise .readOnlyRegister) := by
  rw [checkWritable_error h, bind_error, perform_error]

theorem execDecode_readOnly {rd rc : RegIdx} (hne : rd ≠ rc) (h : rd.val ≤ 2 ∨ rc.val ≤ 2) (rs1 : RegIdx) (s : State) :
    execDecode rd rc rs1 s = .next (s.raise .readOnlyRegister) := by
  rcases checkWritable_cases rd with ⟨hrd, h1⟩ | ⟨-, h1⟩
  · have h2 : checkWritable rc = .error .readOnlyRegister := checkWritable_error (by omega)
    simp only [execDecode, if_neg hne, h1, h2, pure_ok, bind_ok, bind_error, perform_error]
  · simp only [execDecode, if_neg hne, h1, pure_ok, bind_error, perform_error]

theorem exec_readOnly {i : Instr} (hwf : i.wellFormed = true) {r : RegIdx} (hmem : r ∈ i.dests) (hr : r.val ≤ 2)
    (s : State) : exec i s = .next (s.raise .readOnlyRegister) := by
  cases i with
  | nop => cases hmem
  | construct m => cases hmem
  | encode rd rs1 => exact perform_readOnly (List.mem_singleton.mp hmem ▸ hr) s _
  | inject rd rs1 pos => exact perform_readOnly (List.mem_singleton.mp hmem ▸ hr) s _
  | decode rd rc rs1 =>
    have hne : rd ≠ rc := by simpa [Instr.wellFormed] using hwf
    have hdest : rd.val ≤ 2 ∨ rc.val ≤ 2 := by
      obtain rfl | rfl : r = rd ∨ r = rc := by simpa [Instr.dests] using hmem
      · exact .inl hr
      · exact .inr hr
    exact execDecode_readOnly hne hdest rs1 s
  | madd rd rs1 rs2 => exact perform_readOnly (List.mem_singleton.mp hmem ▸ hr) s _
  | mmul rd rs1 rs2 => exact perform_readOnly (List.mem_singleton.mp hmem ▸ hr) s _
  | mdim rd rows cols => exact perform_readOnly (List.mem_singleton.mp hmem ▸ hr) s _
  | mwrow rd row data => exact perform_readOnly (List.mem_singleton.mp hmem ▸ hr) s _
  | mrrow rs1 row => cases hmem
  | mwcol rd col data => exact perform_readOnly (List.mem_singleton.mp hmem ▸ hr) s _
  | mrcol rs1 col => cases hmem
  | mshape rs1 => cases hmem
  | status => cases hmem

/-! ### STICKY_ERR is read by STATUS alone (`10_state.md` R30) -/

/-- The same state with another STICKY_ERR. -/
def State.withSticky (b : Bool) (s : State) : State := { s with stickyErr := b }

/-- Two computations that raise the same error, or commit the same writes and DATA_OUT, the second with STICKY_ERR `b`. -/
inductive SameWrites (b : Bool) : Except CmdError (State × DataWord) → Except CmdError (State × DataWord) → Prop
  | raise (e : CmdError) : SameWrites b (.error e) (.error e)
  | commit (t : State) (v : DataWord) : SameWrites b (.ok (t, v)) (.ok (t.withSticky b, v))

/-- After a check or a read with the same outcome it is enough to compare the rest. -/
theorem SameWrites.bind {b : Bool} {α : Type} {x : Except CmdError α} {f f' : α → Except CmdError (State × DataWord)}
    (h : ∀ a, SameWrites b (f a) (f' a)) : SameWrites b (x >>= f) (x >>= f') := by
  cases x with
  | error e => exact .raise e
  | ok a => exact h a

/-- Every command but STATUS makes the same checks and the same writes whatever STICKY_ERR is. -/
theorem exec_withSticky {i : Instr} (hi : i ≠ .status) (b : Bool) (s : State) :
    ∃ x x', exec i s = perform s x ∧ exec i (s.withSticky b) = perform (s.withSticky b) x' ∧ SameWrites b x x' := by
  cases i with
  | status => exact absurd rfl hi
  | nop => exact ⟨_, _, rfl, rfl, .commit ..⟩
  | construct m => exact ⟨_, _, rfl, rfl, .bind fun _ => .commit ..⟩
  | encode rd rs1 =>
    exact ⟨_, _, rfl, rfl, .bind fun _ => .bind fun _ => .bind fun w => .bind fun G => .bind fun _ => .bind fun c =>
      .commit ..⟩
  | inject rd rs1 pos =>
    exact ⟨_, _, rfl, rfl, .bind fun _ => .bind fun _ => .bind fun c => .bind fun _ => .bind fun _ => .commit ..⟩
  | decode rd rc rs1 =>
    refine ⟨_, _, rfl, rfl, ?_⟩
    split
    · exact .raise _
    · exact .bind fun _ => .bind fun _ => .bind fun _ => .bind fun x => .bind fun H => .bind fun R => .bind fun _ =>
        .bind fun syn => .bind fun w => .commit ..
  | madd rd rs1 rs2 =>
    exact ⟨_, _, rfl, rfl, .bind fun _ => .bind fun A => .bind fun B => .bind fun C => .commit ..⟩
  | mmul rd rs1 rs2 =>
    exact ⟨_, _, rfl, rfl, .bind fun _ => .bind fun A => .bind fun B => .bind fun C => .commit ..⟩
  | mdim rd rows cols => exact ⟨_, _, rfl, rfl, .bind fun _ => .bind fun _ => .commit ..⟩
  | mwrow rd row data =>
    exact ⟨_, _, rfl, rfl, .bind fun _ => .bind fun A => .bind fun _ => .bind fun _ => .commit ..⟩
  | mrrow rs1 row => exact ⟨_, _, rfl, rfl, .bind fun A => .bind fun _ => .commit ..⟩
  | mwcol rd col data =>
    exact ⟨_, _, rfl, rfl, .bind fun _ => .bind fun A => .bind fun _ => .bind fun _ => .commit ..⟩
  | mrcol rs1 col => exact ⟨_, _, rfl, rfl, .bind fun A => .bind fun _ => .commit ..⟩
  | mshape rs1 => exact ⟨_, _, rfl, rfl, .bind fun A => .commit ..⟩

/-- Bit 8 of the STATUS word is STICKY_ERR (`45_register_access.md` R221). -/
theorem getLsbD_statusWord_eight (s : State) : (statusWord s).getLsbD 8 = s.stickyErr := by
  have hcodeM : s.codeM.toNat.testBit 8 = false := Nat.testBit_lt_two_pow s.codeM.isLt
  have hsticky : s.stickyErr.toNat.testBit 0 = s.stickyErr := by cases s.stickyErr <;> rfl
  simp only [statusWord, zext256, BitVec.getLsbD_or, BitVec.getLsbD_shiftLeft, BitVec.getLsbD_ofNat, hcodeM]
  simp [hsticky]

end Sys2Proof.Machine
end

section
/-! PROOFS. The obligations of `10_state.md`. -/

namespace Sys2Proof.Machine

/-! ### The invariant -/

/-- Settles O19: an idle step, a reset and taking a response are immediate; a command keeps the invariant in every way it
can end. -/
theorem everyStepKeepsTheInvariant : Obligations.EveryStepKeepsTheInvariant :=
  fun _ _ hs h => step_keeps_inv hs h

/-- Settles O18: every register is Empty and there is no code. -/
theorem resetMeetsTheInvariant : Obligations.ResetMeetsTheInvariant := State.init_inv

/-! ### What a command reads and writes -/

/-- Settles O6: a word of another opcode decodes to the same instruction whatever DATA_IN is. -/
theorem onlyRowAndColumnWritesReadDataIn : Obligations.OnlyRowAndColumnWritesReadDataIn := by
  intro w d d' hrow hcol s
  simp only [runCommand, decode_dataIn hrow hcol d d']

/-- Settles O20: of the ways an instruction can end, only CONSTRUCT's touches the code. -/
theorem onlyConstructWritesTheCode : Obligations.OnlyConstructWritesTheCode := by
  intro i s t hi h
  have hends := InstrEnds.of_exec h
  exact ⟨hends.codeM hi, hends.codeReg hi (by decide), hends.codeReg hi (by decide), hends.codeReg hi (by decide)⟩

/-- Settles O21: no check stands before the destination check but the decoder's. -/
theorem codeRegisterDestinationsAreRefused : Obligations.CodeRegisterDestinationsAreRefused := by
  rintro i s hwf ⟨r, hmem, hr⟩
  exact ⟨_, exec_readOnly hwf hmem hr s, failed_raise s _⟩

/-- Settles O23, clause by clause. -/
theorem stickyErrRecordsFailures : Obligations.StickyErrRecordsFailures := by
  refine ⟨State.init_stickyErr, fun c s t h => ?_, fun s t hs h => ?_, fun s => ?_⟩
  · obtain ⟨i, hends⟩ := InstrEnds.of_runCommand h
    exact hends.rsp_stickyErr
  · obtain ⟨-, rfl⟩ | ⟨a, rest, hin, hact⟩ := step_cases h
    · exact .inl hs
    · obtain ⟨c, -, hrun⟩ | ⟨rfl | ⟨c, rfl⟩, -⟩ | ⟨-, rfl⟩ := act_cases hact
      · obtain ⟨i, hends⟩ := InstrEnds.of_runCommand hrun
        exact .inl (hends.stickyErr_of_set hs)
      · exact .inr ⟨rest, .inl hin⟩
      · exact .inr ⟨rest, .inr ⟨c, hin⟩⟩
      · exact .inl hs
  · exact ⟨_, _, execStatus_eq s, rfl, getLsbD_statusWord_eight s, rfl⟩

/-- Settles O24: STATUS answers another word only; any other command computes the same writes or the same error. -/
theorem noCommandDependsOnStickyErr : Obligations.NoCommandDependsOnStickyErr := by
  intro i s b
  by_cases hi : i = .status
  · subst hi
    exact ⟨_, _, _, _, execStatus_eq s, execStatus_eq _, rfl, rfl, rfl, rfl, rfl, fun h => absurd rfl h⟩
  · obtain ⟨x, x', h, h', hsame⟩ := exec_withSticky hi b s
    cases hsame <;> exact ⟨_, _, _, _, h, h', rfl, rfl, rfl, rfl, rfl, fun _ => rfl⟩

/-! ### The step and the port -/

/-- Settles O17: the port is free, so the step performs the command, which answers in every way it can end. -/
theorem everyCommandGetsOneResponse : Obligations.EveryCommandGetsOneResponse := by
  intro s c rest hrsp hin
  obtain ⟨i, t, hrun, hends⟩ := runCommand_ends c { s with inbox := rest }
  obtain ⟨r, hr, -⟩ := hends.rsp_stickyErr
  obtain ⟨hcfg, hinbox, htaken⟩ := hends.host_unchanged
  refine ⟨t, r, ?_, hr, hinbox, htaken, hcfg⟩
  rw [step_command hin hrsp, hrun]

/-- Settles O9: a command the host is made to offer finds the port free. -/
theorem stepPerformsTheDecodedCommand : Obligations.StepPerformsTheDecodedCommand := by
  constructor
  · intro s c rest i hin hrsp hdec
    rw [step_command hin hrsp, runCommand_instr hdec]
  · intro s c i hdec
    have hin : (s.offer c).inbox = .command c :: s.inbox := rfl
    rw [step_cons hin, act_command c rfl, runCommand_instr hdec]
    rfl

/-- Settles O15: the core answers either reset with `State.applyReset`. -/
theorem resetLeavesTheHostAlone : Obligations.ResetLeavesTheHostAlone := by
  intro s t rest a hin ha h
  rw [step_cons hin] at h
  obtain ⟨c, rfl, -⟩ | ⟨-, rfl⟩ | ⟨rfl, -⟩ := act_cases h
  · simp at ha
  · exact ⟨rfl, rfl, rfl⟩
  · simp at ha

/-- Settles O16, row by row of the table of R37. -/
theorem resetValues : Obligations.ResetValues :=
  fun cfg => ⟨State.init_reg cfg, rfl, rfl, rfl, rfl, rfl, rfl⟩

end Sys2Proof.Machine
end

section
/-! PROOFS. Matrices and registers written twice: a row or column read back, and writing the same value again
(`20_memory.md` R56, R58, R61). -/

namespace Sys2Proof.Machine

/-! ### Matrices -/

/-- A row that has been replaced reads as the word it was replaced by, when that word is no wider than the row. -/
theorem rowWord_setRow {A : Mat} {row : Nat} {data : DataWord} (hrow : row < A.rows)
    (hdata : ∀ j, A.cols ≤ j → data.getLsbD j = false) : rowWord (A.setRow row data) row = data := by
  refine BitVec.eq_of_getLsbD_eq fun j hj => ?_
  rw [getLsbD_rowWord _ _ hj]
  rcases Nat.lt_or_ge j A.cols with hcol | hcol
  · rw [Mat.get_setRow row data hrow hcol, if_pos rfl]
  · rw [Mat.get_of_cols_le (A.setRow row data) row hcol, hdata j hcol]

/-- A column that has been replaced reads as the word it was replaced by, when that word is no longer than the column. -/
theorem colWord_setCol {A : Mat} {col : Nat} {data : DataWord} (hcol : col < A.cols)
    (hdata : ∀ i, A.rows ≤ i → data.getLsbD i = false) : colWord (A.setCol col data) col = data := by
  refine BitVec.eq_of_getLsbD_eq fun i hi => ?_
  rw [getLsbD_colWord _ _ hi]
  rcases Nat.lt_or_ge i A.rows with hrow | hrow
  · rw [Mat.get_setCol col data hrow hcol, if_pos rfl]
  · rw [Mat.get_of_rows_le (A.setCol col data) col hrow, hdata i hrow]

@[simp] theorem Mat.setRow_setRow (A : Mat) (row : Nat) (data : DataWord) :
    (A.setRow row data).setRow row data = A.setRow row data := by
  refine Mat.ext_get rfl rfl fun i hi j hj => ?_
  rw [Mat.get_setRow (A := A.setRow row data) row data hi hj]
  split
  · next h => rw [Mat.get_setRow (A := A) row data hi hj, if_pos h]
  · rfl

@[simp] theorem Mat.setCol_setCol (A : Mat) (col : Nat) (data : DataWord) :
    (A.setCol col data).setCol col data = A.setCol col data := by
  refine Mat.ext_get rfl rfl fun i hi j hj => ?_
  rw [Mat.get_setCol (A := A.setCol col data) col data hi hj]
  split
  · next h => rw [Mat.get_setCol (A := A) col data hi hj, if_pos h]
  · rfl

/-- Every matrix is its own inverse: adding B twice adds nothing (`40_gf2_alu.md` R104). -/
@[simp] theorem madd_madd_cancel (A B : Mat) : madd (madd A B) B = A := by
  refine Mat.ext_get rfl rfl fun i hi j hj => ?_
  rw [get_madd (A := madd A B) hi hj, get_madd (A := A) hi hj, Bool.xor_assoc, Bool.xor_self, Bool.xor_false]

/-! ### Registers -/

/-- Writing what a register holds already changes nothing. -/
theorem State.setReg_of_reg {s : State} {r : RegIdx} {A : Mat} (h : s.reg r = .full A) : s.setReg r A = s := by
  refine State.ext_reg (fun q => ?_) rfl rfl rfl rfl rfl rfl
  rw [State.reg_setReg]
  split
  · next hq => rw [hq, h]
  · rfl

/-- Of two writes to one register the later counts. -/
@[simp] theorem State.setReg_setReg (s : State) (r : RegIdx) (A B : Mat) : (s.setReg r A).setReg r B = s.setReg r B := by
  simp [State.setReg]

@[simp] theorem State.loadCode_loadCode (s : State) (m : Nat) : (s.loadCode m).loadCode m = s.loadCode m := by
  refine State.ext_reg (fun r => ?_) rfl rfl rfl rfl rfl rfl
  simp only [State.loadCode_reg]
  split_ifs <;> rfl

/-! ### Writing to a state that has answered -/

section respond
variable (s : State) (v w : DataWord)
@[simp] theorem State.respond_respond : (s.respond v).respond w = s.respond w := rfl
@[simp] theorem State.respond_setReg (r : RegIdx) (A : Mat) : (s.respond v).setReg r A = (s.setReg r A).respond v := rfl
@[simp] theorem State.respond_loadCode (m : Nat) : (s.respond v).loadCode m = (s.loadCode m).respond v := rfl
end respond

end Sys2Proof.Machine
end

section
/-! PROOFS. Performing a command again on the state it left (`20_memory.md` R58). -/

namespace Sys2Proof.Machine

/-! ### A command that failed fails again -/

/-- Of two computations the second fails with every error the first fails with. -/
def FailsAlike (x x' : Except CmdError (State × DataWord)) : Prop := ∀ e, x = .error e → x' = .error e

theorem FailsAlike.ok {t t' : State} {v v' : DataWord} : FailsAlike (.ok (t, v)) (.ok (t', v')) := nofun

/-- After a check or a read with the same outcome it is enough to compare the rest. -/
theorem FailsAlike.bind {α : Type} {x : Except CmdError α} {f f' : α → Except CmdError (State × DataWord)}
    (h : ∀ a, FailsAlike (f a) (f' a)) : FailsAlike (x >>= f) (x >>= f') := by
  cases x with
  | error e => exact fun _ he => he
  | ok a => exact h a

/-- A raised error leaves all that checks read: every command is a chain of checks and reads with the outcomes they had
before, and then its writes. -/
theorem exec_failsAlike (i : Instr) (s : State) (e : CmdError) :
    ∃ x x', exec i s = perform s x ∧ exec i (s.raise e) = perform (s.raise e) x' ∧ FailsAlike x x' := by
  cases i with
  | nop => exact ⟨.ok (s, 0), .ok (s.raise e, 0), rfl, rfl, .ok⟩
  | status => exact ⟨.ok (s, statusWord s), .ok (s.raise e, statusWord (s.raise e)), rfl, rfl, .ok⟩
  | decode rd rc rs1 =>
    refine ⟨_, _, rfl, rfl, ?_⟩
    split
    · exact fun _ he => he
    · repeat refine .bind fun _ => ?_
      exact .ok
  | _ =>
    refine ⟨_, _, rfl, rfl, ?_⟩
    repeat refine .bind fun _ => ?_
    exact .ok

/-- A computation that leaves what raising `e` leaves has failed with `e`: the response says so. -/
theorem eq_error_of_perform {s : State} {x : Except CmdError (State × DataWord)} {e : CmdError}
    (h : perform s x = .next (s.raise e)) : x = .error e := by
  obtain ⟨t, v, -, hx⟩ | ⟨e', rfl, hx⟩ := perform_cases s x
  · have hrsp := congrArg State.rsp (Host.Outcome.next.inj (hx.symm.trans h))
    simp at hrsp
  · have hrsp := congrArg State.rsp (Host.Outcome.next.inj (hx.symm.trans h))
    simpa using hrsp

/-- A command that failed fails again with the same error, and so leaves the same state. -/
theorem exec_raise_again {i : Instr} {s : State} {e : CmdError} (h : exec i s = .next (s.raise e)) :
    exec i (s.raise e) = .next (s.raise e) := by
  obtain ⟨x, x', hs, ht, hfails⟩ := exec_failsAlike i s e
  rw [ht, hfails e (eq_error_of_perform (hs.symm.trans h)), perform_error]
  rfl

/-! ### Commands that may be performed twice -/

/-- Performing `i` again on the state it leaves from `s` answers that same state (R58). -/
def IdempotentOn (i : Instr) (s : State) : Prop := ∀ t, exec i s = .next t → exec i t = .next t

namespace IdempotentOn
variable {i : Instr} {s u : State}

theorem of_next (h : exec i s = .next u) (hu : exec i u = .next u) : IdempotentOn i s := by
  intro t ht
  cases h.symm.trans ht
  exact hu

theorem of_raise {e : CmdError} (h : exec i s = .next (s.raise e)) : IdempotentOn i s :=
  of_next h (exec_raise_again h)

/-- A command that writes one register, and there the same matrix when it is performed again. -/
theorem of_setReg {rd : RegIdx} {A : Mat} {v : DataWord} (h : exec i s = .next ((s.setReg rd A).respond v))
    (hagain : exec i ((s.setReg rd A).respond v) = .next ((((s.setReg rd A).respond v).setReg rd A).respond v)) :
    IdempotentOn i s :=
  of_next h (by simpa using hagain)

end IdempotentOn

/-- The register that is written is read as the matrix written. -/
theorem reg_respond_setReg_self (s : State) (rd : RegIdx) (C : Mat) (v : DataWord) :
    ((s.setReg rd C).respond v).reg rd = .full C := by
  rw [State.respond_reg, State.reg_setReg_self]

/-- A register that is not written is read as before by the next command. -/
theorem reg_respond_setReg {s : State} {q rd : RegIdx} {A : MatReg} (C : Mat) (v : DataWord) (hq : s.reg q = A)
    (hne : q ≠ rd) : ((s.setReg rd C).respond v).reg q = A := by
  rw [State.respond_reg, State.reg_setReg_ne _ _ hne, hq]

/-- A code register is never a destination (`10_state.md` R23). -/
theorem codeReg_ne {q rd : RegIdx} (hq : q.val ≤ 2) (hrd : 3 ≤ rd.val) : q ≠ rd := by
  rintro rfl
  omega

/-! ### Commands that write the same value again, whatever they found -/

theorem mdim_idempotent (rd : RegIdx) (rows cols : BitVec 8) (s : State) : IdempotentOn (.mdim rd rows cols) s := by
  obtain ⟨e, h⟩ | ⟨hrd, hr, hc, h⟩ := execMdim_cases rd rows cols s
  · exact .of_raise h
  · exact .of_setReg h (execMdim_ok hrd hr hc)

theorem mwrow_idempotent (rd : RegIdx) (row : BitVec 8) (data : DataWord) (s : State) :
    IdempotentOn (.mwrow rd row data) s := by
  obtain ⟨e, h⟩ | ⟨A, hrd, -, hr, hd, h⟩ := execMwrow_cases rd row data s
  · exact .of_raise h
  · have hagain := execMwrow_ok hrd (reg_respond_setReg_self s rd (A.setRow row.toNat data) 0) hr hd
    rw [Mat.setRow_setRow] at hagain
    exact .of_setReg h hagain

theorem mwcol_idempotent (rd : RegIdx) (col : BitVec 8) (data : DataWord) (s : State) :
    IdempotentOn (.mwcol rd col data) s := by
  obtain ⟨e, h⟩ | ⟨A, hrd, -, hc, hd, h⟩ := execMwcol_cases rd col data s
  · exact .of_raise h
  · have hagain := execMwcol_ok hrd (reg_respond_setReg_self s rd (A.setCol col.toNat data) 0) hc hd
    rw [Mat.setCol_setCol] at hagain
    exact .of_setReg h hagain

theorem construct_idempotent (m : BitVec 16) (s : State) : IdempotentOn (.construct m) s := by
  obtain ⟨e, h⟩ | ⟨⟨h2, hM⟩, h⟩ := execConstruct_cases m s
  · exact .of_raise h
  · have hagain := execConstruct_ok (s := (s.loadCode m.toNat).respond (constructWord m.toNat)) h2 hM
    rw [State.respond_loadCode, State.loadCode_loadCode, State.respond_respond] at hagain
    exact .of_next h hagain

/-! ### Commands whose sources are not written -/

section sources
variable {rd rc rs1 rs2 : RegIdx} (s : State)

theorem madd_idempotent (h1 : rs1 ≠ rd) (h2 : rs2 ≠ rd) : IdempotentOn (.madd rd rs1 rs2) s := by
  obtain ⟨e, h⟩ | ⟨A, B, hrd, hA, hB, ⟨hr, hc⟩, h⟩ := execMadd_cases rd rs1 rs2 s
  · exact .of_raise h
  · exact .of_setReg h (execMadd_ok hrd (reg_respond_setReg _ _ hA h1) (reg_respond_setReg _ _ hB h2) hr hc)

theorem mmul_idempotent (h1 : rs1 ≠ rd) (h2 : rs2 ≠ rd) : IdempotentOn (.mmul rd rs1 rs2) s := by
  obtain ⟨e, h⟩ | ⟨A, B, hrd, hA, hB, hp, h⟩ := execMmul_cases rd rs1 rs2 s
  · exact .of_raise h
  · exact .of_setReg h (execMmul_ok hrd (reg_respond_setReg _ _ hA h1) (reg_respond_setReg _ _ hB h2) hp)

theorem encode_idempotent (h1 : rs1 ≠ rd) : IdempotentOn (.encode rd rs1) s := by
  obtain ⟨e, h⟩ | ⟨w, G, hrd, hm, hw, hG, ⟨hr, hc⟩, hp, h⟩ := execEncode_cases rd rs1 s
  · exact .of_raise h
  · have hG' := reg_respond_setReg (mmul G w) 0 hG (codeReg_ne (by decide) hrd)
    exact .of_setReg h (execEncode_ok hrd hm (reg_respond_setReg _ _ hw h1) hG' hr hc hp)

theorem inject_idempotent (h1 : rs1 ≠ rd) (pos : BitVec 16) : IdempotentOn (.inject rd rs1 pos) s := by
  obtain ⟨e, h⟩ | ⟨c, hrd, hm, hc, ⟨hpos, hn⟩, ⟨hr, hcols⟩, h⟩ := execInject_cases rd rs1 pos s
  · exact .of_raise h
  · exact .of_setReg h (execInject_ok hrd hm (reg_respond_setReg _ _ hc h1) hpos hn hr hcols)

/-- The two destinations differ, so each holds on the second run what the first wrote there. -/
theorem decode_idempotent (h1 : rs1 ≠ rd) (h2 : rs1 ≠ rc) : IdempotentOn (.decode rd rc rs1) s := by
  obtain ⟨e, h⟩ | ⟨x, H, R, hne, hrd, hrc, hm, hx, hH, hR, ⟨hr, hc⟩, hp, hq, h⟩ := execDecode_cases rd rc rs1 s
  · exact .of_raise h
  · rw [correct_rows] at hq
    generalize hy : correct s.codeN x (toInt (mmul H x)) = y at h
    generalize ht : ((s.setReg rd (mmul R y)).setReg rc y).respond (zext256 (toInt (mmul H x))) = t at h
    have hread {q : RegIdx} {A : MatReg} (hA : s.reg q = A) (hqd : q ≠ rd) (hqc : q ≠ rc) : t.reg q = A :=
      ht ▸ reg_respond_setReg _ _ ((s.reg_setReg_ne _ hqd).trans hA) hqc
    have hH' := hread hH (codeReg_ne (by decide) hrd) (codeReg_ne (by decide) hrc)
    have hR' := hread hR (codeReg_ne (by decide) hrd) (codeReg_ne (by decide) hrc)
    have hn : t.codeN = s.codeN := ht ▸ rfl
    have hd : t.reg rd = .full (mmul R y) := ht ▸ reg_respond_setReg _ _ (State.reg_setReg_self ..) hne
    have hc' : t.reg rc = .full y := ht ▸ reg_respond_setReg_self ..
    have hv : t.respond (zext256 (toInt (mmul H x))) = t := ht ▸ rfl
    have hagain := execDecode_ok hne hrd hrc (ht ▸ hm) (hread hx h1 h2) hH' hR' (hr.trans hn.symm) hc hp hq
    rw [hn, hy, State.setReg_of_reg hd, State.setReg_of_reg hc', hv] at hagain
    exact .of_next h hagain

end sources

end Sys2Proof.Machine
end

section
/-! PROOFS. The obligations of `20_memory.md`. -/

namespace Sys2Proof.Machine

/-- Settles O36: the write passes its checks, and the row or column it replaced reads as DATA_IN. -/
theorem writtenRowsAndColumnsReadBack : Obligations.WrittenRowsAndColumnsReadBack := by
  intro s rd A data hrd hA
  refine ⟨fun row hrow hdata => ?_, fun col hcol hdata => ?_⟩
  · refine ⟨_, _, execMwrow_ok hrd hA hrow (fitsWidth_iff.mpr hdata),
      execMrrow_ok (State.reg_setReg_self ..) hrow, ?_⟩
    rw [State.respond_rsp, rowWord_setRow hrow hdata]
  · refine ⟨_, _, execMwcol_ok hrd hA hcol (fitsWidth_iff.mpr hdata),
      execMrcol_ok (State.reg_setReg_self ..) hcol, ?_⟩
    rw [State.respond_rsp, colWord_setCol hcol hdata]

/-- Settles O56, command by command. -/
theorem writingCommandsAreIdempotent : Obligations.WritingCommandsAreIdempotent := by
  intro i s t hop
  cases i with
  | mdim rd rows cols => exact mdim_idempotent rd rows cols s t
  | mwrow rd row data => exact mwrow_idempotent rd row data s t
  | mwcol rd col data => exact mwcol_idempotent rd col data s t
  | construct m => exact construct_idempotent m s t
  | _ => simp [Instr.op] at hop

/-- Settles O57, command by command. -/
theorem idempotentWithoutSharedRegisters : Obligations.IdempotentWithoutSharedRegisters := by
  intro i s t hop hsrc
  cases i with
  | madd rd rs1 rs2 =>
    obtain ⟨h1, h2⟩ : rs1 ≠ rd ∧ rs2 ≠ rd := by simpa [Instr.sources, Instr.dests] using hsrc
    exact madd_idempotent s h1 h2 t
  | mmul rd rs1 rs2 =>
    obtain ⟨h1, h2⟩ : rs1 ≠ rd ∧ rs2 ≠ rd := by simpa [Instr.sources, Instr.dests] using hsrc
    exact mmul_idempotent s h1 h2 t
  | encode rd rs1 =>
    have h1 : rs1 ≠ rd := by simpa [Instr.sources, Instr.dests] using hsrc
    exact encode_idempotent s h1 t
  | inject rd rs1 pos =>
    have h1 : rs1 ≠ rd := by simpa [Instr.sources, Instr.dests] using hsrc
    exact inject_idempotent s h1 pos t
  | decode rd rc rs1 =>
    obtain ⟨h1, h2⟩ : rs1 ≠ rd ∧ rs1 ≠ rc := by simpa [Instr.sources, Instr.dests] using hsrc
    exact decode_idempotent s h1 h2 t
  | _ => simp [Instr.op] at hop

/-- Settles O58: the second command adds the same unit vector again, so the register holds what it held before. -/
theorem injectInPlaceTwiceRestores : Obligations.InjectInPlaceTwiceRestores := by
  intro s t r pos v h hok
  obtain ⟨e, hs⟩ | ⟨c, hrd, hm, hc, ⟨hpos, hn⟩, ⟨hr, hcols⟩, hs⟩ := execInject_cases r r pos s
  · cases h.symm.trans hs
    simp at hok
  · cases h.symm.trans hs
    refine ⟨_, execInject_ok hrd hm (State.reg_setReg_self ..) hpos hn hr hcols, ?_⟩
    have hback : madd (madd c (unitVec s.codeN pos.toNat)) (unitVec s.codeN pos.toNat) = c := madd_madd_cancel ..
    simp only [State.respond_codeN, State.setReg_codeN, State.respond_setReg, State.respond_respond, State.setReg_setReg,
      hback, State.setReg_of_reg hc]
    exact completed_respond_self s 0

end Sys2Proof.Machine
end

section
/-! PROOFS. Words, rows and instructions: a word matches a row exactly when it has the row's opcode and zero fields, each row
builds from a word the instruction that encodes it, and the ways decoding can end (`30_encoding.md` R73 to R81). -/

namespace Sys2Proof

/-! ### Fields of a masked word (`30_encoding.md` R70, R74) -/

theorem fieldRd_and (w v : CmdWord) : fieldRd (w &&& v) = fieldRd w &&& fieldRd v := by
  rw [fieldRd, BitVec.extractLsb'_and, BitVec.toFin_and]; rfl

theorem fieldRs1_and (w v : CmdWord) : fieldRs1 (w &&& v) = fieldRs1 w &&& fieldRs1 v := by
  rw [fieldRs1, BitVec.extractLsb'_and, BitVec.toFin_and]; rfl

theorem fieldRs2_and (w v : CmdWord) : fieldRs2 (w &&& v) = fieldRs2 w &&& fieldRs2 v := by
  rw [fieldRs2, BitVec.extractLsb'_and, BitVec.toFin_and]; rfl

theorem fieldImmLo_and (w v : CmdWord) : fieldImmLo (w &&& v) = fieldImmLo w &&& fieldImmLo v := BitVec.extractLsb'_and ..

theorem fieldImmHi_and (w v : CmdWord) : fieldImmHi (w &&& v) = fieldImmHi w &&& fieldImmHi v := BitVec.extractLsb'_and ..

/-! A mask keeps a whole field or nothing of it. -/

theorem regIdx_and_last (r : RegIdx) : r &&& 15 = r := by revert r; decide

theorem regIdx_and_zero (r : RegIdx) : r &&& 0 = 0 := by revert r; decide

theorem byte_and_last (b : BitVec 8) : b &&& 255#8 = b := BitVec.and_allOnes

/-- Two words are equal exactly when their six fields are. -/
theorem word_eq_iff_fields {w v : CmdWord} : w = v ↔ fieldOp w = fieldOp v ∧ fieldRd w = fieldRd v ∧
    fieldRs1 w = fieldRs1 v ∧ fieldRs2 w = fieldRs2 v ∧ fieldImmLo w = fieldImmLo v ∧ fieldImmHi w = fieldImmHi v := by
  constructor
  · rintro rfl
    exact ⟨rfl, rfl, rfl, rfl, rfl, rfl⟩
  · rintro ⟨hop, hrd, hrs1, hrs2, hlo, hhi⟩
    have himm : fieldImm16 w = fieldImm16 v := by rw [fieldImm16_eq, fieldImm16_eq, hlo, hhi]
    rw [← encodeWord_fields w, hop, hrd, hrs1, hrs2, himm, encodeWord_fields]

/-- The match word has the row's opcode and no other bit (`30_encoding.md` R74). -/
theorem Op.fields_matchWord (o : Op) : fieldRd o.matchWord = 0 ∧ fieldRs1 o.matchWord = 0 ∧ fieldRs2 o.matchWord = 0 ∧
    fieldImmLo o.matchWord = 0 ∧ fieldImmHi o.matchWord = 0 := by
  cases o <;> exact ⟨rfl, rfl, rfl, rfl, rfl⟩

/-- A word matches a row exactly when its opcode is the row's and the mask keeps no bit of another field. -/
theorem Op.hits_iff_masked {o : Op} {w : CmdWord} : o.hits w = true ↔ fieldOp w = o.code ∧
    fieldRd w &&& fieldRd o.maskWord = 0 ∧ fieldRs1 w &&& fieldRs1 o.maskWord = 0 ∧
    fieldRs2 w &&& fieldRs2 o.maskWord = 0 ∧ fieldImmLo w &&& fieldImmLo o.maskWord = 0 ∧
    fieldImmHi w &&& fieldImmHi o.maskWord = 0 := by
  obtain ⟨hrd, hrs1, hrs2, hlo, hhi⟩ := o.fields_matchWord
  rw [Op.hits, beq_iff_eq, word_eq_iff_fields, fieldOp_and, o.fieldOp_maskWord, BitVec.and_allOnes, o.fieldOp_matchWord,
    fieldRd_and, fieldRs1_and, fieldRs2_and, fieldImmLo_and, fieldImmHi_and, hrd, hrs1, hrs2, hlo, hhi]

/-- The fields the mask keeps are those the field table marks 0 (`30_encoding.md` R73, R74). -/
theorem Op.hits_iff {o : Op} {w : CmdWord} : o.hits w = true ↔ fieldOp w = o.code ∧ o.zeroFields w := by
  rw [Op.hits_iff_masked]
  cases o <;> simp [Op.maskWord, Op.zeroFields, fieldRd, fieldRs1, fieldRs2, fieldImmLo, fieldImmHi, regIdx_and_last,
    regIdx_and_zero, byte_and_last]

/-! ### Which row a word matches (`30_encoding.md` R74) -/

/-- The rows stand in the order of their opcodes. -/
theorem Op.rows_code (o : Op) : Op.rows[o.code.toNat]? = some o := by cases o <;> rfl

theorem Op.code_injective : Function.Injective Op.code := by
  intro o o' h
  have hrow : some o = some o' := by rw [← o.rows_code, ← o'.rows_code, h]
  exact Option.some.inj hrow

theorem Op.code_lt (o : Op) : o.code.toNat < 14 := (List.getElem?_eq_some_iff.mp o.rows_code).1

theorem Op.mem_rows (o : Op) : o ∈ Op.rows := List.mem_of_getElem? o.rows_code

/-- Rows with different opcodes have no word in common. -/
theorem Op.eq_of_hits {o o' : Op} {w : CmdWord} (h : o.hits w = true) (h' : o'.hits w = true) : o = o' :=
  Op.code_injective ((Op.fieldOp_of_hits h).symm.trans (Op.fieldOp_of_hits h'))

theorem opOf_eq_none_iff {w : CmdWord} : opOf w = none ↔ ∀ o : Op, ¬ o.hits w = true := by
  rw [opOf, List.find?_eq_none]
  exact ⟨fun h o => h o o.mem_rows, fun h o _ => h o⟩

theorem hits_of_opOf {w : CmdWord} {o : Op} (h : opOf w = some o) : o.hits w = true :=
  List.find?_some (p := fun o' : Op => o'.hits w) h

theorem opOf_eq_some_iff {w : CmdWord} {o : Op} : opOf w = some o ↔ o.hits w = true := by
  refine ⟨hits_of_opOf, fun h => ?_⟩
  cases hrow : opOf w with
  | none => exact absurd h (opOf_eq_none_iff.mp hrow o)
  | some o' => rw [Op.eq_of_hits (hits_of_opOf hrow) h]

/-! ### How decoding ends (`30_encoding.md` R75 to R80) -/

/-- The word is a DECODE word that names one register as both destinations (`30_encoding.md` R77). -/
def Op.sameDestination (o : Op) (w : CmdWord) : Prop := o = .decode ∧ fieldRd w = fieldRs2 w

theorem decode_of_hits {c : Command} {o : Op} (h : o.hits c.word = true) (hne : ¬ o.sameDestination c.word) :
    decode c = .instr (o.build c) := by
  simp only [decode, opOf_eq_some_iff.mpr h]
  exact if_neg hne

theorem decode_of_sameDestination {c : Command} (h : Op.decode.hits c.word = true)
    (heq : fieldRd c.word = fieldRs2 c.word) : decode c = .illegal .sameDestination := by
  simp only [decode, opOf_eq_some_iff.mpr h, heq, and_self, if_true]

theorem decode_of_reserved {c : Command} (h : 14 ≤ (fieldOp c.word).toNat) :
    decode c = .illegal .reservedOpcode := by
  have hnone : opOf c.word = none := opOf_eq_none_iff.mpr fun o ho => by
    have := o.code_lt
    rw [Op.fieldOp_of_hits ho] at h
    omega
  simp only [decode, hnone, if_pos h]

theorem decode_of_mustBeZero {c : Command} (h : (fieldOp c.word).toNat < 14) (hno : ∀ o : Op, ¬ o.hits c.word = true) :
    decode c = .illegal .mustBeZero := by
  simp only [decode, opOf_eq_none_iff.mpr hno, if_neg (Nat.not_le.mpr h)]

/-- The four ways decoding can end. -/
theorem decode_cases (c : Command) :
    (∃ o : Op, o.hits c.word = true ∧ ¬ o.sameDestination c.word ∧ decode c = .instr (o.build c)) ∨
    (Op.decode.hits c.word = true ∧ fieldRd c.word = fieldRs2 c.word ∧ decode c = .illegal .sameDestination) ∨
    (14 ≤ (fieldOp c.word).toNat ∧ decode c = .illegal .reservedOpcode) ∨
    ((fieldOp c.word).toNat < 14 ∧ (∀ o : Op, ¬ o.hits c.word = true) ∧ decode c = .illegal .mustBeZero) := by
  by_cases hno : ∀ o : Op, ¬ o.hits c.word = true
  · rcases Nat.lt_or_ge (fieldOp c.word).toNat 14 with h | h
    · exact .inr (.inr (.inr ⟨h, hno, decode_of_mustBeZero h hno⟩))
    · exact .inr (.inr (.inl ⟨h, decode_of_reserved h⟩))
  · obtain ⟨o, ho⟩ := not_forall_not.mp hno
    by_cases hsame : o.sameDestination c.word
    · obtain ⟨rfl, heq⟩ := hsame
      exact .inr (.inl ⟨ho, heq, decode_of_sameDestination ho heq⟩)
    · exact .inl ⟨o, ho, hsame, decode_of_hits ho hsame⟩

theorem exists_row_of_decode {c : Command} {i : Instr} (h : decode c = .instr i) :
    ∃ o : Op, o.hits c.word = true ∧ ¬ o.sameDestination c.word ∧ o.build c = i := by
  obtain ⟨o, ho, hne, hdec⟩ | ⟨-, -, hdec⟩ | ⟨-, hdec⟩ | ⟨-, -, hdec⟩ := decode_cases c
  · exact ⟨o, ho, hne, Decoded.instr.inj (hdec.symm.trans h)⟩
  all_goals simp [hdec] at h

theorem decode_eq_reservedOpcode_iff {c : Command} :
    decode c = .illegal .reservedOpcode ↔ 14 ≤ (fieldOp c.word).toNat := by
  refine ⟨fun h => ?_, decode_of_reserved⟩
  obtain ⟨o, -, -, hdec⟩ | ⟨-, -, hdec⟩ | ⟨hop, -⟩ | ⟨-, -, hdec⟩ := decode_cases c
  · simp [hdec] at h
  · simp [hdec] at h
  · exact hop
  · simp [hdec] at h

theorem decode_eq_mustBeZero_iff {c : Command} : decode c = .illegal .mustBeZero ↔
    (fieldOp c.word).toNat < 14 ∧ ∀ o : Op, ¬ o.hits c.word = true := by
  refine ⟨fun h => ?_, fun ⟨hop, hno⟩ => decode_of_mustBeZero hop hno⟩
  obtain ⟨o, -, -, hdec⟩ | ⟨-, -, hdec⟩ | ⟨-, hdec⟩ | ⟨hop, hno, -⟩ := decode_cases c
  · simp [hdec] at h
  · simp [hdec] at h
  · simp [hdec] at h
  · exact ⟨hop, hno⟩

theorem decode_eq_sameDestination_iff {c : Command} : decode c = .illegal .sameDestination ↔
    Op.decode.hits c.word = true ∧ fieldRd c.word = fieldRs2 c.word := by
  refine ⟨fun h => ?_, fun ⟨ho, heq⟩ => decode_of_sameDestination ho heq⟩
  obtain ⟨o, -, -, hdec⟩ | ⟨ho, heq, -⟩ | ⟨-, hdec⟩ | ⟨-, -, hdec⟩ := decode_cases c
  · simp [hdec] at h
  · exact ⟨ho, heq⟩
  · simp [hdec] at h
  · simp [hdec] at h

/-! ### Encoding and building are inverse (`30_encoding.md` R78, R81) -/

@[simp] theorem Op.op_build (o : Op) (c : Command) : (o.build c).op = o := by cases o <;> rfl

/-- An encoding matches the row of its instruction. -/
theorem op_hits_encode (i : Instr) : i.op.hits (encode i).word = true := by
  rw [Op.hits_iff]
  cases i with
  | nop => exact Laws.EncodedFields.nop
  | construct m => exact Laws.EncodedFields.construct m
  | encode rd rs1 => exact Laws.EncodedFields.encode rd rs1
  | inject rd rs1 pos => exact Laws.EncodedFields.inject rd rs1 pos
  | decode rd rc rs1 => exact Laws.EncodedFields.decode rd rc rs1
  | madd rd rs1 rs2 => exact Laws.EncodedFields.madd rd rs1 rs2
  | mmul rd rs1 rs2 => exact Laws.EncodedFields.mmul rd rs1 rs2
  | mdim rd rows cols => exact Laws.EncodedFields.mdim rd rows cols
  | mwrow rd row data => exact Laws.EncodedFields.mwrow rd row data
  | mrrow rs1 row => exact Laws.EncodedFields.mrrow rs1 row
  | mwcol rd col data => exact Laws.EncodedFields.mwcol rd col data
  | mrcol rs1 col => exact Laws.EncodedFields.mrcol rs1 col
  | mshape rs1 => exact Laws.EncodedFields.mshape rs1
  | status => exact Laws.EncodedFields.status

/-- The row of an instruction builds it again from its encoding. -/
theorem build_encode (i : Instr) : i.op.build (encode i) = i := by
  cases i <;> simp [Instr.op, Op.build, encode]

/-- The encoding of a well-formed DECODE names two destinations (`30_encoding.md` R77). -/
theorem not_sameDestination_encode {i : Instr} (hwf : i.wellFormed = true) :
    ¬ i.op.sameDestination (encode i).word := by
  rintro ⟨hop, heq⟩
  cases i with
  | decode rd rc rs1 =>
    have hne : rd ≠ rc := by simpa [Instr.wellFormed] using hwf
    exact hne (by simpa [encode] using heq)
  | _ => simp [Instr.op] at hop

/-- Only a DECODE word with one destination builds an instruction that is not well-formed. -/
theorem Op.wellFormed_build {o : Op} {c : Command} (hne : ¬ o.sameDestination c.word) :
    (o.build c).wellFormed = true := by
  cases o with
  | decode =>
    have hdest : fieldRd c.word ≠ fieldRs2 c.word := fun heq => hne ⟨rfl, heq⟩
    simpa [Op.build, Instr.wellFormed] using hdest
  | _ => rfl

theorem fieldImm16_of_bytes_zero {w : CmdWord} (hlo : fieldImmLo w = 0) (hhi : fieldImmHi w = 0) : fieldImm16 w = 0 := by
  rw [fieldImm16_of_bytes hlo hhi, imm16Of_zero]

/-- A word of a row is the encoding of the instruction the row builds from it. -/
theorem encode_build_word {o : Op} {c : Command} (h : o.hits c.word = true) : (encode (o.build c)).word = c.word := by
  obtain ⟨hop, hzero⟩ := Op.hits_iff.mp h
  cases o with
  | nop =>
    obtain ⟨hrd, hrs1, hrs2, hlo, hhi⟩ := hzero
    exact encodeWord_eq_of_fields hop hrd hrs1 hrs2 (fieldImm16_of_bytes_zero hlo hhi)
  | construct =>
    obtain ⟨hrd, hrs1, hrs2⟩ := hzero
    exact encodeWord_eq_of_fields hop hrd hrs1 hrs2 rfl
  | encode =>
    obtain ⟨hrs2, hlo, hhi⟩ := hzero
    exact encodeWord_eq_of_fields hop rfl rfl hrs2 (fieldImm16_of_bytes_zero hlo hhi)
  | inject => exact encodeWord_eq_of_fields hop rfl rfl hzero rfl
  | decode => exact encodeWord_eq_of_fields hop rfl rfl rfl (fieldImm16_of_bytes_zero hzero.1 hzero.2)
  | madd => exact encodeWord_eq_of_fields hop rfl rfl rfl (fieldImm16_of_bytes_zero hzero.1 hzero.2)
  | mmul => exact encodeWord_eq_of_fields hop rfl rfl rfl (fieldImm16_of_bytes_zero hzero.1 hzero.2)
  | mdim =>
    obtain ⟨hrs1, hrs2⟩ := hzero
    exact encodeWord_eq_of_fields hop rfl hrs1 hrs2 (fieldImm16_eq _)
  | mwrow =>
    obtain ⟨hrs1, hrs2, hhi⟩ := hzero
    exact encodeWord_eq_of_fields hop rfl hrs1 hrs2 (fieldImm16_of_bytes rfl hhi)
  | mrrow =>
    obtain ⟨hrd, hrs2, hhi⟩ := hzero
    exact encodeWord_eq_of_fields hop hrd rfl hrs2 (fieldImm16_of_bytes rfl hhi)
  | mwcol =>
    obtain ⟨hrs1, hrs2, hhi⟩ := hzero
    exact encodeWord_eq_of_fields hop rfl hrs1 hrs2 (fieldImm16_of_bytes rfl hhi)
  | mrcol =>
    obtain ⟨hrd, hrs2, hhi⟩ := hzero
    exact encodeWord_eq_of_fields hop hrd rfl hrs2 (fieldImm16_of_bytes rfl hhi)
  | mshape =>
    obtain ⟨hrd, hrs2, hlo, hhi⟩ := hzero
    exact encodeWord_eq_of_fields hop hrd rfl hrs2 (fieldImm16_of_bytes_zero hlo hhi)
  | status =>
    obtain ⟨hrd, hrs1, hrs2, hlo, hhi⟩ := hzero
    exact encodeWord_eq_of_fields hop hrd hrs1 hrs2 (fieldImm16_of_bytes_zero hlo hhi)

end Sys2Proof
end

section
/-! PROOFS. What the pseudo-instructions run (`30_encoding.md` R85). -/

namespace Sys2Proof.Machine

/-- MMUL on operands that fit completes with the product in its destination (`40_gf2_alu.md` R115). -/
theorem exec_mmul_completed {s : State} {rd rs1 rs2 : RegIdx} {A B : Mat} (hrd : 3 ≤ rd.val) (hA : s.reg rs1 = .full A)
    (hB : s.reg rs2 = .full B) (hp : A.cols = B.rows) :
    ∃ t, exec (.mmul rd rs1 rs2) s = .next t ∧ Completed s t [rd] 0 ∧ t.reg rd = .full (mmul A B) :=
  ⟨_, execMmul_ok hrd hA hB hp, completed_respond_setReg .., reg_respond_setReg_self ..⟩

end Sys2Proof.Machine
end

section
/-! PROOFS. The obligations of `30_encoding.md`. -/

namespace Sys2Proof.Machine

/-! ### Words and instructions -/

/-- Settles O1: the encoding matches the row of `i` and no other, and that row builds `i` from it. -/
theorem decodeOfEncodeIsTheInstruction : Obligations.DecodeOfEncodeIsTheInstruction := by
  intro i hwf
  rw [decode_of_hits (op_hits_encode i) (not_sameDestination_encode hwf), build_encode]

/-- Settles O2: the row that the word matches leaves no bit of the word outside the operands it builds from. -/
theorem everyLegalWordIsAnEncoding : Obligations.EveryLegalWordIsAnEncoding := by
  intro c i h
  obtain ⟨o, ho, hne, rfl⟩ := exists_row_of_decode h
  refine ⟨Op.wellFormed_build hne, encode_build_word ho, fun hop => ?_⟩
  rw [Op.op_build] at hop
  obtain rfl | rfl := hop <;> rfl

/-- Settles O3, field by field of the masked word. -/
theorem masksAgreeWithTheFieldTable : Obligations.MasksAgreeWithTheFieldTable :=
  fun _ _ => Op.hits_iff

/-- Settles O4: every mask keeps the opcode, and no two rows share one. -/
theorem noWordMatchesTwoRows : Obligations.NoWordMatchesTwoRows :=
  fun _ _ _ h h' => Op.eq_of_hits h h'

/-- Settles O5: each clause is one of the ways decoding can end. -/
theorem illegalWordsExactly : Obligations.IllegalWordsExactly := by
  intro c
  refine ⟨decode_eq_reservedOpcode_iff, ?_, ?_, fun why s h => ?_⟩
  · simp only [decode_eq_mustBeZero_iff, Op.hits_iff]
  · rw [decode_eq_sameDestination_iff, Op.hits_iff, and_assoc]
  · exact ⟨_, runCommand_illegal h s, failed_raise s _⟩

/-- Settles O7 by evaluating the assembler, the decoder and the encoder on the listed lines and words. -/
theorem listedWordsDecode : Obligations.ListedWordsDecode := ⟨by decide, by decide⟩

/-! ### Pseudo-instructions -/

/-- Settles O37: MDIM leaves the zero vector, and MWCOL replaces its one column by DATA. -/
theorem vloadLoadsAVector : Obligations.VloadLoadsAVector := by
  intro s rd len data hrd h1 hlen hdata
  have hone : (1 : BitVec 8).toNat = 1 := rfl
  have hdim := execMdim_ok (cols := 1) hrd ⟨h1, hlen⟩ ⟨hone.ge, hone.trans_le (h1.trans hlen)⟩
  have hcol := execMwcol_ok (col := 0) hrd (reg_respond_setReg_self s rd (Mat.zero len.toNat 1) 0) Nat.one_pos
    (fitsWidth_iff.mpr hdata)
  rw [State.respond_setReg, State.setReg_setReg, State.respond_respond] at hcol
  refine ⟨_, _, _, _, _, rfl, hdim, hcol, completed_respond_setReg .., reg_respond_setReg_self .., rfl, rfl,
    fun l hl => ?_⟩
  rw [Mat.get_setCol _ _ hl Nat.one_pos]
  rfl

/-- Settles O8: the invariant gives H and R, whose columns are as many as the rows of the source. -/
theorem pseudoInstructionsExpand : Obligations.PseudoInstructionsExpand := by
  refine ⟨fun rd rs len data => ⟨rfl, rfl, rfl, rfl, rfl, rfl⟩, fun s rd rs x hinv hm hrd hx hrows => ?_⟩
  obtain ⟨-, -, -, hH, hR⟩ := hinv.code hm
  have hcols : codeLen s.codeM.toNat = x.rows := (hrows.trans (State.codeN_of_ne hm)).symm
  exact ⟨⟨_, (exec_mmul_completed hrd hH hx hcols).imp fun _ ht => ⟨rfl, ht⟩⟩,
    ⟨_, (exec_mmul_completed hrd hR hx hcols).imp fun _ ht => ⟨rfl, ht⟩⟩⟩

end Sys2Proof.Machine
end

section
/-! PROOFS. The algebra of matrices over GF(2): addition and multiplication compared element by element (`40_gf2_alu.md`
R104). -/

namespace Sys2Proof.Machine

/-! ### Addition -/

theorem madd_comm {A B : Mat} (hr : A.rows = B.rows) (hc : A.cols = B.cols) : madd A B = madd B A := by
  refine Mat.ext_get hr hc fun i (hi : i < A.rows) j (hj : j < A.cols) => ?_
  rw [get_madd hi hj, get_madd (hi.trans_eq hr) (hj.trans_eq hc), Bool.xor_comm]

theorem madd_assoc {A B : Mat} (C : Mat) (hr : A.rows = B.rows) (hc : A.cols = B.cols) :
    madd (madd A B) C = madd A (madd B C) := by
  refine Mat.ext_get rfl rfl fun i (hi : i < A.rows) j (hj : j < A.cols) => ?_
  rw [get_madd (A := madd A B) hi hj, get_madd hi hj, get_madd hi hj,
    get_madd (hi.trans_eq hr) (hj.trans_eq hc), Bool.xor_assoc]

theorem madd_self (A : Mat) : madd A A = Mat.zero A.rows A.cols := by
  refine Mat.ext_get rfl rfl fun i (hi : i < A.rows) j (hj : j < A.cols) => ?_
  rw [get_madd hi hj, Bool.xor_self, Mat.get_zero]

/-! ### Multiplication -/

/-- Both products accumulate `A(i, k) · B(k, l) · C(l, j)` over all k and l, in different orders. -/
theorem mmul_assoc {A B : Mat} (C : Mat) (h : A.cols = B.rows) : mmul (mmul A B) C = mmul A (mmul B C) := by
  refine Mat.ext_get rfl rfl fun i (hi : i < A.rows) j (hj : j < C.cols) => ?_
  calc (mmul (mmul A B) C).get i j
      = xorBelow B.cols fun l => (mmul A B).get i l && C.get l j := get_mmul hi hj
    _ = xorBelow B.cols fun l => xorBelow A.cols fun k => (A.get i k && B.get k l) && C.get l j :=
        xorBelow_congr fun l hl => by rw [get_mmul hi hl, xorBelow_and_right]
    _ = xorBelow A.cols fun k => xorBelow B.cols fun l => A.get i k && (B.get k l && C.get l j) := by
        rw [xorBelow_comm]; simp only [Bool.and_assoc]
    _ = xorBelow A.cols fun k => A.get i k && (mmul B C).get k j :=
        xorBelow_congr fun k hk => by rw [get_mmul (hk.trans_eq h) hj, xorBelow_and_left]
    _ = (mmul A (mmul B C)).get i j := (get_mmul (B := mmul B C) hi hj).symm

theorem mmul_madd {A B C : Mat} (h : A.cols = B.rows) (hc : B.cols = C.cols) :
    mmul A (madd B C) = madd (mmul A B) (mmul A C) := by
  refine Mat.ext_get rfl rfl fun i (hi : i < A.rows) j (hj : j < B.cols) => ?_
  calc (mmul A (madd B C)).get i j
      = xorBelow A.cols fun l => A.get i l && (madd B C).get l j := get_mmul hi hj
    _ = xorBelow A.cols fun l => (A.get i l && B.get l j) ^^ (A.get i l && C.get l j) :=
        xorBelow_congr fun l hl => by rw [get_madd (hl.trans_eq h) hj, Bool.and_xor_distrib_left]
    _ = ((mmul A B).get i j ^^ (mmul A C).get i j) := by
        rw [xorBelow_xor, get_mmul hi hj, get_mmul hi (hj.trans_eq hc)]
    _ = (madd (mmul A B) (mmul A C)).get i j := (get_madd (A := mmul A B) hi hj).symm

theorem madd_mmul {A B : Mat} (C : Mat) (hr : A.rows = B.rows) (hc : A.cols = B.cols) :
    mmul (madd A B) C = madd (mmul A C) (mmul B C) := by
  refine Mat.ext_get rfl rfl fun i (hi : i < A.rows) j (hj : j < C.cols) => ?_
  calc (mmul (madd A B) C).get i j
      = xorBelow A.cols fun l => (madd A B).get i l && C.get l j := get_mmul hi hj
    _ = xorBelow A.cols fun l => (A.get i l && C.get l j) ^^ (B.get i l && C.get l j) :=
        xorBelow_congr fun l hl => by rw [get_madd hi hl, Bool.and_xor_distrib_right]
    _ = ((mmul A C).get i j ^^ (mmul B C).get i j) := by
        rw [xorBelow_xor, get_mmul hi hj, get_mmul (hi.trans_eq hr) hj, hc]
    _ = (madd (mmul A C) (mmul B C)).get i j := (get_madd (A := mmul A C) hi hj).symm

/-! ### Products with one term that may be 1 -/

theorem identity_mmul (A : Mat) : mmul (Mat.identity A.rows) A = A := by
  refine Mat.ext_get rfl rfl fun i (hi : i < A.rows) j (hj : j < A.cols) => ?_
  have hzero : ∀ l < A.rows, l ≠ i → ((Mat.identity A.rows).get i l && A.get l j) = false := fun l hl hne => by
    rw [Mat.get_identity hi hl, beq_false_of_ne hne.symm, Bool.false_and]
  rw [get_mmul (A := Mat.identity A.rows) hi hj, Mat.identity_cols, xorBelow_single hi hzero, Mat.get_identity hi hi,
    beq_self_eq_true, Bool.true_and]

/-- A matrix times the p-th basis vector is its column p - 1. -/
theorem mmul_unitVec {A : Mat} {p : Nat} (h1 : 1 ≤ p) (hp : p ≤ A.cols) :
    mmul A (unitVec A.cols p) = Mat.ofFn A.rows 1 fun i _ => A.get i (p - 1) := by
  refine Mat.ext_get rfl rfl fun i (hi : i < A.rows) j (hj : j < 1) => ?_
  obtain rfl : j = 0 := Nat.lt_one_iff.mp hj
  have hlt : p - 1 < A.cols := by omega
  have hzero : ∀ l < A.cols, l ≠ p - 1 → (A.get i l && (unitVec A.cols p).get l 0) = false := fun l hl hne => by
    rw [get_unitVec hl, beq_false_of_ne (by omega), Bool.and_false]
  rw [get_mmul hi hj, xorBelow_single hlt hzero, get_unitVec hlt, Nat.sub_add_cancel h1, beq_self_eq_true,
    Bool.and_true, Mat.get_ofFn_of_lt _ hi hj]

end Sys2Proof.Machine
end

section
/-! PROOFS. The obligations of `40_gf2_alu.md`. -/

namespace Sys2Proof.Machine

/-! ### The commands -/

/-- MADD on operands of one size completes with the sum in its destination (`40_gf2_alu.md` R110). -/
theorem exec_madd_completed {s : State} {rd rs1 rs2 : RegIdx} {A B : Mat} (hrd : 3 ≤ rd.val)
    (hA : s.reg rs1 = .full A) (hB : s.reg rs2 = .full B) (hr : A.rows = B.rows) (hc : A.cols = B.cols) :
    ∃ t, exec (.madd rd rs1 rs2) s = .next t ∧ Completed s t [rd] 0 ∧ t.reg rd = .full (madd A B) :=
  ⟨_, execMadd_ok hrd hA hB hr hc, completed_respond_setReg .., reg_respond_setReg_self ..⟩

/-- Settles O38: MADD completes with `madd A B`, whose elements are the XORs. -/
theorem maddAddsElementwise : Obligations.MaddAddsElementwise := by
  intro s rd rs1 rs2 A B hrd hA hB hr hc
  obtain ⟨t, hexec, hdone, hC⟩ := exec_madd_completed hrd hA hB hr hc
  exact ⟨t, madd A B, hexec, hdone, hC, rfl, rfl, fun _ hi _ hj => get_madd hi hj⟩

/-- Settles O39: MMUL completes with `mmul A B`, whose elements are the accumulated products. -/
theorem mmulMultiplies : Obligations.MmulMultiplies := by
  intro s rd rs1 rs2 A B hrd hA hB h
  obtain ⟨t, hexec, hdone, hC⟩ := exec_mmul_completed hrd hA hB h
  exact ⟨t, mmul A B, hexec, hdone, hC, rfl, rfl, fun _ hi _ hj => get_mmul hi hj⟩

/-! ### The laws of R104 -/

/-- Settles O40, one law of the algebra per clause. -/
theorem aluAlgebraLaws : Obligations.AluAlgebraLaws :=
  ⟨fun _ _ C hr hc _ _ => ⟨madd_comm hr hc, madd_assoc C hr hc⟩, madd_self, fun _ _ C h _ => mmul_assoc C h,
    fun _ _ _ h _ hc => mmul_madd h hc, fun _ _ C hr hc _ => madd_mmul C hr hc, identity_mmul,
    fun _ _ => mmul_unitVec⟩

end Sys2Proof.Machine
end

section
/-! PROOFS. The code as R131 to R140 describe it: which positions carry data, the elements of G, H and R by position,
the products of H and R with G, and the word CONSTRUCT answers (`41_code_construction.md`). -/

namespace Sys2Proof.Machine

/-! ### Positions (`41_code_construction.md` R131, R132) -/

theorem isParityPos_eq_false_iff {j : Nat} : isParityPos j = false ↔ ∀ i, j ≠ 2 ^ i := by
  rw [← Bool.not_eq_true, isParityPos_iff, not_exists]

theorem isParityPos_dataPos {m t : Nat} (h1 : 1 ≤ t) (hk : t ≤ wordLen m) : isParityPos (dataPos m t) = false :=
  (mem_dataPositions.mp (dataPos_mem h1 hk)).2

/-- A data position is one of the positions 1..n. -/
theorem dataPos_bounds {m t : Nat} (h1 : 1 ≤ t) (hk : t ≤ wordLen m) : 1 ≤ dataPos m t ∧ dataPos m t ≤ codeLen m :=
  (mem_dataPositions.mp (dataPos_mem h1 hk)).1

theorem dataPos_lt {m t u : Nat} (h1 : 1 ≤ t) (htu : t < u) (hk : u ≤ wordLen m) : dataPos m t < dataPos m u := by
  obtain ⟨t, rfl⟩ : ∃ t', t = t' + 1 := ⟨t - 1, by omega⟩
  obtain ⟨u, rfl⟩ : ∃ u', u = u' + 1 := ⟨u - 1, by omega⟩
  rw [dataPos_succ (by omega), dataPos_succ (by omega)]
  exact List.pairwise_iff_getElem.mp (dataPositions_sorted m) t u _ _ (by omega)

/-- The data positions are those of 1..n that are no powers of two. -/
theorem exists_dataPos_iff {m j : Nat} :
    (∃ t, 1 ≤ t ∧ t ≤ wordLen m ∧ dataPos m t = j) ↔ 1 ≤ j ∧ j ≤ codeLen m ∧ ∀ i, j ≠ 2 ^ i := by
  rw [← and_assoc, ← isParityPos_eq_false_iff, ← mem_dataPositions]
  constructor
  · rintro ⟨t, h1, hk, rfl⟩
    exact dataPos_mem h1 hk
  · exact exists_dataPos_eq

/-- The parity position of weight `2 ^ i` is one of the positions 1..n. -/
theorem two_pow_le_codeLen {m i : Nat} (hi : i < m) : 2 ^ i ≤ codeLen m := by
  have := codeLen_add_one m
  have : 2 ^ i < 2 ^ m := Nat.pow_lt_pow_right (by omega) hi
  omega

/-! ### Elements, rows and columns named by positions (`41_code_construction.md` R133 to R135) -/

theorem gBit_two_pow (i d : Nat) : gBit (2 ^ i) d = d.testBit i := by
  rw [gBit, isParityPos_two_pow, if_pos rfl, and_two_pow_ne_zero]

theorem decide_and_two_pow_ne_zero (d i : Nat) : decide (d &&& 2 ^ i ≠ 0) = d.testBit i := by
  rw [← and_two_pow_ne_zero, bne, beq_eq_decide, decide_not]

theorem gBit_of_not_parity {p : Nat} (hp : isParityPos p = false) (d : Nat) : gBit p d = (p == d) := by
  simp [gBit, hp]

theorem get_hMat_pos {m i j : Nat} (hi : i < m) (h1 : 1 ≤ j) (hn : j ≤ codeLen m) :
    (hMat m).get i (j - 1) = j.testBit i := by
  rw [get_hMat hi (by omega), Nat.sub_add_cancel h1]

theorem get_gMat_pos {m p t : Nat} (h1 : 1 ≤ p) (hn : p ≤ codeLen m) (ht1 : 1 ≤ t) (htk : t ≤ wordLen m) :
    (gMat m).get (p - 1) (t - 1) = gBit p (dataPos m t) := by
  rw [get_gMat (by omega) (by omega), Nat.sub_add_cancel h1, Nat.sub_add_cancel ht1]

theorem get_rMat_pos {m t j : Nat} (ht1 : 1 ≤ t) (htk : t ≤ wordLen m) (h1 : 1 ≤ j) (hn : j ≤ codeLen m) :
    (rMat m).get (t - 1) (j - 1) = (j == dataPos m t) := by
  rw [get_rMat (by omega) (by omega), Nat.sub_add_cancel h1, Nat.sub_add_cancel ht1]

/-- The data rows of G are the rows of the identity. -/
theorem get_gMat_dataPos {m t u : Nat} (ht1 : 1 ≤ t) (htk : t ≤ wordLen m) (hu1 : 1 ≤ u) (huk : u ≤ wordLen m) :
    (gMat m).get (dataPos m u - 1) (t - 1) = decide (u = t) := by
  obtain ⟨h1, hn⟩ := dataPos_bounds hu1 huk
  rw [get_gMat_pos h1 hn ht1 htk, gBit_of_not_parity (isParityPos_dataPos hu1 huk), beq_eq_decide]
  exact decide_eq_decide.mpr (dataPos_inj hu1 huk ht1 htk)

/-- The parity row of weight `2 ^ i` of G reads bit i of each data position. -/
theorem get_gMat_two_pow {m t i : Nat} (ht1 : 1 ≤ t) (htk : t ≤ wordLen m) (hi : i < m) :
    (gMat m).get (2 ^ i - 1) (t - 1) = (dataPos m t).testBit i := by
  rw [get_gMat_pos Nat.one_le_two_pow (two_pow_le_codeLen hi) ht1 htk, gBit_two_pow]

/-! ### XOR over the positions 1..n -/

/-- An accumulation over positions that one position selects. -/
theorem xorBelow_select {n q : Nat} (h1 : 1 ≤ q) (hn : q ≤ n) (f : Nat → Bool) :
    xorBelow n (fun l => l + 1 == q && f l) = f (q - 1) := by
  rw [xorBelow_single (p := q - 1) (by omega) fun l hl hne => by rw [beq_false_of_ne (by omega), Bool.false_and],
    Nat.sub_add_cancel h1, beq_self_eq_true, Bool.true_and]

/-! ### H times G (`41_code_construction.md` R137) -/

/-- Row i of H meets the column of data position d at two positions or none: the parity position `2 ^ i` and d itself,
both exactly when d has bit i. -/
theorem hBit_and_gBit {d : Nat} (hd : isParityPos d = false) (i p : Nat) :
    (p.testBit i && gBit p d) = ((p == 2 ^ i && d.testBit i) ^^ (p == d && d.testBit i)) := by
  cases hp : isParityPos p with
  | true =>
    obtain ⟨e, rfl⟩ := isParityPos_iff.mp hp
    have hne : 2 ^ e ≠ d := fun h => by simp [← h] at hd
    rw [gBit_two_pow, Nat.testBit_two_pow, beq_false_of_ne hne, beq_eq_decide]
    rcases eq_or_ne e i with rfl | he
    · simp
    · simp [he]
  | false =>
    have hne : p ≠ 2 ^ i := isParityPos_eq_false_iff.mp hp i
    rw [gBit_of_not_parity hp, beq_false_of_ne hne]
    rcases eq_or_ne p d with rfl | hpd
    · simp
    · simp [beq_false_of_ne hpd]

theorem hMat_mmul_gMat (m : Nat) : mmul (hMat m) (gMat m) = Mat.zero m (wordLen m) := by
  refine Mat.ext_get rfl rfl fun i (hi : i < m) t (ht : t < wordLen m) => ?_
  obtain ⟨h1, hn⟩ := dataPos_bounds (m := m) (t := t + 1) (by omega) ht
  have hd := isParityPos_dataPos (m := m) (t := t + 1) (by omega) ht
  generalize hdef : dataPos m (t + 1) = d at h1 hn hd
  calc (mmul (hMat m) (gMat m)).get i t
      = xorBelow (codeLen m) fun l => (hMat m).get i l && (gMat m).get l t := get_mmul hi ht
    _ = xorBelow (codeLen m) fun l => (l + 1 == 2 ^ i && d.testBit i) ^^ (l + 1 == d && d.testBit i) :=
        xorBelow_congr fun l hl => by rw [get_hMat hi hl, get_gMat hl ht, hdef, hBit_and_gBit hd]
    _ = (d.testBit i ^^ d.testBit i) := by
        rw [xorBelow_xor, xorBelow_select Nat.one_le_two_pow (two_pow_le_codeLen hi), xorBelow_select h1 hn]
    _ = (Mat.zero m (wordLen m)).get i t := by rw [Bool.xor_self, Mat.get_zero]

/-! ### R times G (`41_code_construction.md` R138) -/

/-- Row t of R selects row `d_t` of G, which is row t of the identity. -/
theorem rMat_mmul_gMat (m : Nat) : mmul (rMat m) (gMat m) = Mat.identity (wordLen m) := by
  refine Mat.ext_get rfl rfl fun t (ht : t < wordLen m) u (hu : u < wordLen m) => ?_
  obtain ⟨h1, hn⟩ := dataPos_bounds (m := m) (t := t + 1) (by omega) ht
  calc (mmul (rMat m) (gMat m)).get t u
      = xorBelow (codeLen m) fun l => (rMat m).get t l && (gMat m).get l u := get_mmul ht hu
    _ = xorBelow (codeLen m) fun l => l + 1 == dataPos m (t + 1) && (gMat m).get l u :=
        xorBelow_congr fun l hl => by rw [get_rMat ht hl]
    _ = (gMat m).get (dataPos m (t + 1) - 1) u := xorBelow_select h1 hn _
    _ = decide (t + 1 = u + 1) := get_gMat_dataPos (by omega) hu (by omega) ht
    _ = (Mat.identity (wordLen m)).get t u := by rw [Mat.get_identity ht hu]; simp [beq_eq_decide]

/-! ### The columns of H (`41_code_construction.md` R139) -/

/-- A column vector reads as the integer whose bits are its elements. -/
theorem toInt_ofFn_testBit {r v : Nat} (hv : v < 2 ^ r) {f : Nat → Nat → Bool} (hf : ∀ i < r, f i 0 = v.testBit i) :
    toInt (Mat.ofFn r 1 f) = v := by
  refine Nat.eq_of_testBit_eq fun i => ?_
  rw [testBit_toInt]
  rcases Nat.lt_or_ge i r with hi | hi
  · rw [Mat.get_ofFn_of_lt f hi Nat.one_pos, hf i hi]
  · have hvi : v < 2 ^ i := hv.trans_le (Nat.pow_le_pow_right (by omega) hi)
    rw [Mat.get_of_rows_le (Mat.ofFn r 1 f) 0 hi, Nat.testBit_lt_two_pow hvi]

theorem toInt_hMat_column {m j : Nat} (h1 : 1 ≤ j) (hn : j ≤ codeLen m) :
    toInt (Mat.ofFn m 1 fun i _ => (hMat m).get i (j - 1)) = j := by
  have := codeLen_add_one m
  exact toInt_ofFn_testBit (by omega) fun i hi => get_hMat_pos hi h1 hn

/-! ### The word CONSTRUCT answers (`41_code_construction.md` R140) -/

/-- A value put above the bits of a word is added with its weight. -/
theorem toNat_or_zext256_shiftLeft {x : DataWord} {v k : Nat} (hx : x.toNat < 2 ^ k) (hv : 2 ^ k * v < 2 ^ 256) :
    (x ||| (zext256 v <<< k)).toNat = x.toNat + 2 ^ k * v := by
  have hv' : v < 2 ^ 256 := (Nat.le_mul_of_pos_left v (Nat.two_pow_pos k)).trans_lt hv
  rw [BitVec.toNat_or, BitVec.toNat_shiftLeft, zext256, BitVec.toNat_ofNat, Nat.mod_eq_of_lt hv', Nat.shiftLeft_eq,
    Nat.mul_comm v, Nat.mod_eq_of_lt hv, Nat.or_comm, ← Nat.two_pow_add_eq_or_of_lt hx, Nat.add_comm]

theorem toNat_constructWord {m : Nat} (hm : m ≤ 8) :
    (constructWord m).toNat = codeLen m + 2 ^ 8 * wordLen m + 2 ^ 16 * m := by
  have hn : codeLen m ≤ 255 := codeLen_mono hm
  have hk := wordLen_le_codeLen m
  have h0 : (zext256 (codeLen m)).toNat = codeLen m := Nat.mod_eq_of_lt (by omega)
  have h1 := toNat_or_zext256_shiftLeft (x := zext256 (codeLen m)) (v := wordLen m) (k := 8) (by omega) (by omega)
  rw [constructWord, toNat_or_zext256_shiftLeft (by omega) (by omega), h1, h0]

end Sys2Proof.Machine
end

section
/-! PROOFS. The obligations of `41_code_construction.md`. -/

namespace Sys2Proof.Machine

/-- Settles O41: no check fails, and loading a code writes the three code registers and CODE_M. -/
theorem constructLoadsTheCode : Obligations.ConstructLoadsTheCode := by
  intro s m h2 hM
  have hword := toNat_constructWord (hM.trans (mMax_le_eight _))
  have hreg (r : RegIdx) := State.loadCode_reg s m.toNat r
  refine ⟨_, _, execConstruct_ok h2 hM, rfl, hword, hreg 0, hreg 1, hreg 2, State.loadCode_codeM_toNat hM,
    fun r hr => ?_, rfl, rfl, rfl, rfl⟩
  have hne {q : RegIdx} (hq : q.val ≤ 2) : r ≠ q := (codeReg_ne hq hr).symm
  rw [State.respond_reg, hreg, if_neg (hne (by decide)), if_neg (hne (by decide)), if_neg (hne (by decide))]

/-- Settles O42; the table of R132 by evaluation. -/
theorem dataPositionsAreNotPowersOfTwo : Obligations.DataPositionsAreNotPowersOfTwo :=
  ⟨fun _ _ _ => dataPos_lt, fun _ _ => exists_dataPos_iff, by decide, by decide, by decide⟩

/-- Settles O43, matrix by matrix. -/
theorem codeMatrixElements : Obligations.CodeMatrixElements := by
  refine fun m => ⟨⟨rfl, rfl, fun i j => get_hMat_pos⟩,
    ⟨rfl, rfl, fun t u => get_gMat_dataPos, fun t i ht1 htk hi => ?_⟩,
    ⟨rfl, rfl, fun t j ht1 htk h1 hn => ?_⟩⟩
  · obtain ⟨h1, hn⟩ := dataPos_bounds ht1 htk
    rw [get_gMat_two_pow ht1 htk hi, get_hMat_pos hi h1 hn, decide_and_two_pow_ne_zero]
    exact ⟨rfl, rfl⟩
  · rw [get_rMat_pos ht1 htk h1 hn, beq_eq_decide]

/-- Settles O44: the two places where row i of H meets a column of G cancel, and the core holds H and G. -/
theorem parityCheckAnnihilatesGenerator : Obligations.ParityCheckAnnihilatesGenerator := by
  refine ⟨fun m _ => hMat_mmul_gMat m, fun s rd hinv hm hrd => ?_⟩
  obtain ⟨-, -, hG, hH, -⟩ := hinv.code hm
  obtain ⟨t, hexec, hdone, hC⟩ := exec_mmul_completed hrd hH hG rfl
  rw [hMat_mmul_gMat, ← State.codeK_of_ne hm] at hC
  exact ⟨_, t, rfl, hexec, hdone, hC⟩

/-- Settles O45: R selects the data rows of G, which are the identity, and the core holds R and G. -/
theorem extractionInvertsGenerator : Obligations.ExtractionInvertsGenerator := by
  refine ⟨fun m _ => rMat_mmul_gMat m, fun s rd hinv hm hrd => ?_⟩
  obtain ⟨-, -, hG, -, hR⟩ := hinv.code hm
  obtain ⟨t, hexec, hdone, hC⟩ := exec_mmul_completed hrd hR hG rfl
  rw [rMat_mmul_gMat, ← State.codeK_of_ne hm] at hC
  exact ⟨_, t, rfl, hexec, hdone, hC⟩

/-- Settles O46: the syndrome of a basis vector is a column of H. -/
theorem columnsOfHReadAsTheirPosition : Obligations.ColumnsOfHReadAsTheirPosition := by
  intro m j h1 hn
  refine ⟨toInt_hMat_column h1 hn, ?_⟩
  rw [← hMat_cols m, mmul_unitVec h1 hn]
  exact toInt_hMat_column h1 hn

end Sys2Proof.Machine
end

section
/-! PROOFS. Codewords: the product of G with a word, element by element, its syndrome and its extraction, and what an
ENCODE with result OK has written (`42_encoder.md`). -/

namespace Sys2Proof.Machine

/-! ### The products of H and R with a codeword (`42_encoder.md` R162, R163) -/

theorem zero_mmul (r c : Nat) (A : Mat) : mmul (Mat.zero r c) A = Mat.zero r A.cols := by
  refine Mat.ext_get rfl rfl fun i (hi : i < r) j (hj : j < A.cols) => ?_
  rw [get_mmul (A := Mat.zero r c) hi hj]
  simp only [Mat.get_zero, Bool.false_and, xorBelow_false]

/-- Every codeword has syndrome 0: `H · (G · w) = (H · G) · w` and `H · G = 0`. -/
theorem hMat_mmul_codeword (m : Nat) (w : Mat) : mmul (hMat m) (mmul (gMat m) w) = Mat.zero m w.cols := by
  rw [← mmul_assoc w rfl, hMat_mmul_gMat, zero_mmul]

/-- Extraction undoes encoding: `R · (G · w) = (R · G) · w` and `R · G = I_k`. -/
theorem rMat_mmul_codeword {m : Nat} {w : Mat} (hw : w.rows = wordLen m) : mmul (rMat m) (mmul (gMat m) w) = w := by
  rw [← mmul_assoc w rfl, rMat_mmul_gMat, ← hw, identity_mmul]

/-! ### The elements of a codeword (`42_encoder.md` R161) -/

/-- Row t - 1 of `R · x` is the row of x at data position `d_t`. -/
theorem get_rMat_mmul {m t j : Nat} {x : Mat} (ht1 : 1 ≤ t) (htk : t ≤ wordLen m) (hj : j < x.cols) :
    (mmul (rMat m) x).get (t - 1) j = x.get (dataPos m t - 1) j := by
  obtain ⟨h1, hn⟩ := dataPos_bounds ht1 htk
  have ht : t - 1 < wordLen m := by omega
  calc (mmul (rMat m) x).get (t - 1) j
      = xorBelow (codeLen m) fun l => (rMat m).get (t - 1) l && x.get l j := get_mmul ht hj
    _ = xorBelow (codeLen m) fun l => l + 1 == dataPos m t && x.get l j :=
        xorBelow_congr fun l hl => by rw [get_rMat ht hl, Nat.sub_add_cancel ht1]
    _ = x.get (dataPos m t - 1) j := xorBelow_select h1 hn _

/-- The data positions of a codeword hold the word unchanged: they are what R extracts. -/
theorem get_codeword_dataPos {m t j : Nat} {w : Mat} (hw : w.rows = wordLen m) (ht1 : 1 ≤ t) (htk : t ≤ wordLen m)
    (hj : j < w.cols) : (mmul (gMat m) w).get (dataPos m t - 1) j = w.get (t - 1) j := by
  rw [← get_rMat_mmul (x := mmul (gMat m) w) ht1 htk hj, rMat_mmul_codeword hw]

/-- The parity position `2 ^ i` of a codeword holds the XOR of the data bits whose position has bit i. -/
theorem get_codeword_two_pow {m i j : Nat} {w : Mat} (hi : i < m) (hj : j < w.cols) :
    (mmul (gMat m) w).get (2 ^ i - 1) j = xorBelow (wordLen m) fun u => (dataPos m (u + 1)).testBit i && w.get u j := by
  have hrow : 2 ^ i - 1 < codeLen m := Nat.sub_one_lt_of_le (Nat.two_pow_pos i) (two_pow_le_codeLen hi)
  have hG (u : Nat) (hu : u < wordLen m) : (gMat m).get (2 ^ i - 1) u = (dataPos m (u + 1)).testBit i :=
    get_gMat_two_pow (t := u + 1) (Nat.le_add_left 1 u) hu hi
  exact (get_mmul hrow hj).trans (xorBelow_congr fun u hu => by rw [hG u hu])

/-! ### ENCODE (`42_encoder.md` R160) -/

/-- Under a constructed code ENCODE of a k×1 word completes with the codeword in its destination. -/
theorem exec_encode_completed {s : State} {rd rs1 : RegIdx} {w : Mat} (hinv : s.Inv) (hm : s.codeM ≠ 0)
    (hrd : 3 ≤ rd.val) (hw : s.reg rs1 = .full w) (hr : w.rows = s.codeK) (hc : w.cols = 1) :
    ∃ t, exec (.encode rd rs1) s = .next t ∧ Completed s t [rd] 0 ∧
      t.reg rd = .full (mmul (gMat s.codeM.toNat) w) := by
  obtain ⟨-, -, hG, -, -⟩ := hinv.code hm
  have hp : wordLen s.codeM.toNat = w.rows := (hr.trans (State.codeK_of_ne hm)).symm
  exact ⟨_, execEncode_ok hrd hm hw hG hr hc hp, completed_respond_setReg .., reg_respond_setReg_self ..⟩

/-- An ENCODE with result OK had a code and a k×1 word, and its destination holds the codeword. -/
theorem encode_ok_inversion {s t : State} {rd rs1 : RegIdx} {w c : Mat} {v : DataWord} (hinv : s.Inv)
    (hw : s.reg rs1 = .full w) (h : exec (.encode rd rs1) s = .next t) (hok : t.rsp = some ⟨.ok, v⟩)
    (hc : t.reg rd = .full c) :
    s.codeM ≠ 0 ∧ w.rows = s.codeK ∧ w.cols = 1 ∧ c = mmul (gMat s.codeM.toNat) w := by
  obtain ⟨e, hs⟩ | ⟨w', G, -, hm, hw', hG, ⟨hr, hcols⟩, -, hs⟩ := execEncode_cases rd rs1 s
  · cases h.symm.trans hs
    simp at hok
  · cases h.symm.trans hs
    cases hw.symm.trans hw'
    obtain ⟨-, -, hG', -, -⟩ := hinv.code hm
    cases hG.symm.trans hG'
    cases hc.symm.trans (reg_respond_setReg_self ..)
    exact ⟨hm, hr, hcols, rfl⟩

end Sys2Proof.Machine
end

section
/-! PROOFS. The obligations of `42_encoder.md`. -/

namespace Sys2Proof.Machine

/-- Settles O47: ENCODE completes with `G · w`, whose data rows copy the word and whose parity rows are its checks. -/
theorem encodeGivesTheCodeword : Obligations.EncodeGivesTheCodeword := by
  intro s rd rs1 w hinv hm hrd hw hr hc
  obtain ⟨t, hexec, hdone, hreg⟩ := exec_encode_completed hinv hm hrd hw hr hc
  have hcol : 0 < w.cols := by omega
  refine ⟨t, _, hexec, hdone, hreg, (State.codeN_of_ne hm).symm, hc, ?_⟩
  rw [State.codeK_of_ne hm] at hr ⊢
  exact ⟨fun u h1 hk => get_codeword_dataPos hr h1 hk hcol, fun i hi => get_codeword_two_pow hi hcol⟩

/-- Settles O48: `H · G = 0` and `R · G = I_k`, and what ENCODE wrote with result OK is `G · w`. -/
theorem codewordsAreInTheNullSpaceOfH : Obligations.CodewordsAreInTheNullSpaceOfH := by
  refine ⟨fun m w _ hr hc => ⟨hc ▸ hMat_mmul_codeword m w, rMat_mmul_codeword hr⟩, ?_⟩
  intro s t rd rs1 w c v hinv hw h hok hreg
  obtain ⟨hm, hr, hc, rfl⟩ := encode_ok_inversion hinv hw h hok hreg
  rw [State.codeK_of_ne hm] at hr ⊢
  exact ⟨hc ▸ hMat_mmul_codeword _ w, rMat_mmul_codeword hr,
    fun u h1 hk => get_codeword_dataPos hr h1 hk (by omega)⟩

end Sys2Proof.Machine
end

section
/-! PROOFS. Flipped positions: the elements of a vector with one position flipped, how a syndrome integer changes by the
flip, and what INJECT writes (`43_channel.md`). -/

namespace Sys2Proof.Machine

/-! ### A vector with one position flipped (`43_channel.md` R170) -/

/-- Adding `e_n(p)` flips the element at index p - 1 and no other. -/
theorem get_madd_unitVec {n p l : Nat} {x : Mat} (hr : x.rows = n) (hc : x.cols = 1) (hl : l < n) :
    (madd x (unitVec n p)).get l 0 = (x.get l 0 ^^ decide (l + 1 = p)) := by
  rw [get_madd (by omega) (by omega), get_unitVec hl, beq_eq_decide]

/-! ### Syndrome integers (`43_channel.md` R173) -/

theorem toInt_zero (r c : Nat) : toInt (Mat.zero r c) = 0 :=
  Nat.eq_of_testBit_eq fun i => by rw [testBit_toInt, Mat.get_zero, Nat.zero_testBit]

/-- Two column vectors of one length add as their integers XOR. -/
theorem toInt_madd {A B : Mat} (hr : A.rows = B.rows) (hc : 0 < A.cols) :
    toInt (madd A B) = toInt A ^^^ toInt B := by
  refine Nat.eq_of_testBit_eq fun i => ?_
  rw [Nat.testBit_xor, testBit_toInt, testBit_toInt, testBit_toInt]
  rcases Nat.lt_or_ge i A.rows with hi | hi
  · exact get_madd hi hc
  · rw [Mat.get_of_rows_le (madd A B) 0 hi, Mat.get_of_rows_le A 0 hi, Mat.get_of_rows_le B 0 (hr.ge.trans hi),
      Bool.xor_self]

/-- The syndrome of `e_n(p)` is column p - 1 of H, which reads as p. -/
theorem toInt_hMat_mmul_unitVec {m p : Nat} (h1 : 1 ≤ p) (hn : p ≤ codeLen m) :
    toInt (mmul (hMat m) (unitVec (codeLen m) p)) = p :=
  (congrArg toInt (mmul_unitVec (A := hMat m) h1 hn)).trans (toInt_hMat_column h1 hn)

/-- A flip at position p changes the syndrome integer of any vector by XOR with p. -/
theorem toInt_syndrome_flip {m p : Nat} {x : Mat} (hr : x.rows = codeLen m) (hc : x.cols = 1) (h1 : 1 ≤ p)
    (hn : p ≤ codeLen m) :
    toInt (mmul (hMat m) (madd x (unitVec (codeLen m) p))) = toInt (mmul (hMat m) x) ^^^ p := by
  have hcol : 0 < (mmul (hMat m) x).cols := Nat.one_pos.trans_eq hc.symm
  calc toInt (mmul (hMat m) (madd x (unitVec (codeLen m) p)))
      = toInt (madd (mmul (hMat m) x) (mmul (hMat m) (unitVec (codeLen m) p))) :=
        congrArg toInt (mmul_madd hr.symm hc)
    _ = toInt (mmul (hMat m) x) ^^^ toInt (mmul (hMat m) (unitVec (codeLen m) p)) := toInt_madd rfl hcol
    _ = toInt (mmul (hMat m) x) ^^^ p := by rw [toInt_hMat_mmul_unitVec h1 hn]

/-! ### INJECT (`43_channel.md` R170) -/

/-- Under a constructed code INJECT of an n×1 vector at a position 1..n completes with the flipped vector. -/
theorem exec_inject_completed {s : State} {rd rs1 : RegIdx} {pos : BitVec 16} {c : Mat} (hm : s.codeM ≠ 0)
    (hrd : 3 ≤ rd.val) (hc : s.reg rs1 = .full c) (h1 : 1 ≤ pos.toNat) (hn : pos.toNat ≤ s.codeN)
    (hr : c.rows = s.codeN) (hcols : c.cols = 1) :
    ∃ t, exec (.inject rd rs1 pos) s = .next t ∧ Completed s t [rd] 0 ∧
      t.reg rd = .full (madd c (unitVec s.codeN pos.toNat)) :=
  ⟨_, execInject_ok hrd hm hc h1 hn hr hcols, completed_respond_setReg .., reg_respond_setReg_self ..⟩

end Sys2Proof.Machine
end

section
/-! PROOFS. The obligations of `43_channel.md`. -/

namespace Sys2Proof.Machine

/-- Settles O49: INJECT completes with the source plus `e_n(pos)`, which differs from it at index pos - 1 only. -/
theorem injectFlipsOnePosition : Obligations.InjectFlipsOnePosition := by
  intro s rd rs1 pos c hm hrd hc h1 hn hr hcols
  obtain ⟨t, hexec, hdone, hd⟩ := exec_inject_completed hm hrd hc h1 hn hr hcols
  exact ⟨t, _, hexec, hdone, hd, hr, hcols, fun _ => get_madd_unitVec hr hcols⟩

/-- Settles O50: the flip changes the syndrome integer of the codeword, which is 0, by XOR with p. -/
theorem injectedSyndromeIsThePosition : Obligations.InjectedSyndromeIsThePosition := by
  intro m p c hr hc hH h1 hn
  rw [toInt_syndrome_flip hr hc h1 hn, hH, toInt_zero, Nat.zero_xor]

end Sys2Proof.Machine
end

section
/-! PROOFS. The five steps of the syndrome decoder, vector by vector, and what DECODE writes (`44_decoder.md` R180 to
R184). -/

namespace Sys2Proof.Machine

/-! ### The syndrome and its integer (`44_decoder.md` R181, R182) -/

/-- The syndrome integer is 0 or names a position. -/
theorem toInt_syndrome_le (m : Nat) (x : Mat) : toInt (mmul (hMat m) x) ≤ codeLen m := by
  have hlt : toInt (mmul (hMat m) x) < 2 ^ m := toInt_lt _
  have := codeLen_add_one m
  omega

/-- Bit i of the syndrome integer is the parity of the received bits at the positions that have bit i. -/
theorem testBit_syndrome {m i : Nat} {x : Mat} (hi : i < m) (hc : x.cols = 1) :
    (toInt (mmul (hMat m) x)).testBit i = xorBelow (codeLen m) fun l => (l + 1).testBit i && x.get l 0 :=
  calc (toInt (mmul (hMat m) x)).testBit i
      = (mmul (hMat m) x).get i 0 := testBit_toInt _ i
    _ = xorBelow (codeLen m) fun l => (hMat m).get i l && x.get l 0 := get_mmul hi (Nat.one_pos.trans_eq hc.symm)
    _ = xorBelow (codeLen m) fun l => (l + 1).testBit i && x.get l 0 :=
        xorBelow_congr fun l hl => by rw [get_hMat hi hl]

/-- A column vector that reads as 0 is the zero vector. -/
theorem eq_zero_of_toInt {A : Mat} (hc : A.cols = 1) (h : toInt A = 0) : A = Mat.zero A.rows 1 := by
  refine Mat.ext_get rfl hc fun i _ j hj => ?_
  obtain rfl : j = 0 := by omega
  rw [← testBit_toInt, h, Nat.zero_testBit, Mat.get_zero]

/-! ### The correction (`44_decoder.md` R183) -/

theorem correct_zero (n : Nat) (x : Mat) : correct n x 0 = x := if_pos rfl

theorem correct_of_ne_zero {p : Nat} (hp : p ≠ 0) (n : Nat) (x : Mat) : correct n x p = madd x (unitVec n p) :=
  if_neg hp

/-- The correction flips the element at index idx - 1 and no other, and none when idx is 0. -/
theorem get_correct {n l : Nat} {x : Mat} (idx : Nat) (hr : x.rows = n) (hc : x.cols = 1) (hl : l < n) :
    (correct n x idx).get l 0 = (x.get l 0 ^^ decide (l + 1 = idx)) := by
  obtain rfl | hidx := eq_or_ne idx 0
  · simp [correct_zero]
  · rw [correct_of_ne_zero hidx, get_madd_unitVec hr hc hl]

/-- Flipping one position twice restores the vector. -/
theorem correct_correct (n : Nat) (x : Mat) (p : Nat) : correct n (correct n x p) p = x := by
  obtain rfl | hp := eq_or_ne p 0
  · rw [correct_zero, correct_zero]
  · rw [correct_of_ne_zero hp, correct_of_ne_zero hp, madd_madd_cancel]

section syndrome
variable {m : Nat} {x : Mat} (hr : x.rows = codeLen m) (hc : x.cols = 1)
include hr hc

/-- Flipping position p, or nothing for p = 0, changes the syndrome integer by XOR with p. -/
theorem toInt_syndrome_correct {p : Nat} (hn : p ≤ codeLen m) :
    toInt (mmul (hMat m) (correct (codeLen m) x p)) = toInt (mmul (hMat m) x) ^^^ p := by
  obtain rfl | hp := eq_or_ne p 0
  · rw [correct_zero, Nat.xor_zero]
  · rw [correct_of_ne_zero hp, toInt_syndrome_flip hr hc (Nat.pos_of_ne_zero hp) hn]

/-- Whatever was received, the corrected vector is a codeword (`44_decoder.md` R187). -/
theorem syndrome_corrected :
    mmul (hMat m) (correct (codeLen m) x (toInt (mmul (hMat m) x))) = Mat.zero m 1 := by
  refine eq_zero_of_toInt ((correct_cols ..).trans hc) ?_
  rw [toInt_syndrome_correct hr hc (toInt_syndrome_le m x), Nat.xor_self]

/-- R reads no parity position, so a flip there does not change what it extracts (`44_decoder.md` R188). -/
theorem rMat_mmul_correct_two_pow (i : Nat) :
    mmul (rMat m) (correct (codeLen m) x (2 ^ i)) = mmul (rMat m) x := by
  refine Mat.ext_get rfl (correct_cols ..) fun t (ht : t < wordLen m) j (hj : j < (correct ..).cols) => ?_
  rw [correct_cols] at hj
  obtain rfl : j = 0 := by omega
  obtain ⟨h1, hn⟩ := dataPos_bounds (Nat.le_add_left 1 t) ht
  have hdata : dataPos m (t + 1) ≠ 2 ^ i :=
    isParityPos_eq_false_iff.mp (isParityPos_dataPos (Nat.le_add_left 1 t) ht) i
  calc (mmul (rMat m) (correct (codeLen m) x (2 ^ i))).get t 0
      = (correct (codeLen m) x (2 ^ i)).get (dataPos m (t + 1) - 1) 0 :=
        get_rMat_mmul (t := t + 1) (Nat.le_add_left 1 t) ht ((correct_cols ..).symm ▸ hj)
    _ = x.get (dataPos m (t + 1) - 1) 0 := by
        rw [get_correct _ hr hc (by omega), Nat.sub_add_cancel h1, decide_eq_false hdata, Bool.xor_false]
    _ = (mmul (rMat m) x).get t 0 := (get_rMat_mmul (t := t + 1) (Nat.le_add_left 1 t) ht hj).symm

end syndrome

/-! ### Two flipped positions (`44_decoder.md` R187) -/

/-- The syndrome integer of a codeword with positions a and b flipped. -/
theorem toInt_syndrome_double_flip {m a b : Nat} {c : Mat} (hr : c.rows = codeLen m) (hc : c.cols = 1)
    (hH : mmul (hMat m) c = Mat.zero m 1) (ha1 : 1 ≤ a) (han : a ≤ codeLen m) (hb1 : 1 ≤ b) (hbn : b ≤ codeLen m) :
    toInt (mmul (hMat m) (madd (madd c (unitVec (codeLen m) a)) (unitVec (codeLen m) b))) = a ^^^ b := by
  rw [toInt_syndrome_flip (x := madd c _) hr hc hb1 hbn, toInt_syndrome_flip hr hc ha1 han, hH, toInt_zero,
    Nat.zero_xor]

/-- Flips at two further positions do not undo a flip at position a. -/
theorem ne_of_flipped {n a b d : Nat} {c : Mat} (hr : c.rows = n) (hc : c.cols = 1) (h1 : 1 ≤ a) (hn : a ≤ n)
    (hb : a ≠ b) (hd : a ≠ d) : madd (madd (madd c (unitVec n a)) (unitVec n b)) (unitVec n d) ≠ c := by
  intro h
  have hl : a - 1 < n := by omega
  have hget := congrArg (·.get (a - 1) 0) h
  rw [get_madd_unitVec (x := madd (madd c _) _) hr hc hl, get_madd_unitVec (x := madd c _) hr hc hl,
    get_madd_unitVec hr hc hl, Nat.sub_add_cancel h1] at hget
  simp [hb, hd] at hget

/-! ### DECODE (`44_decoder.md` R180) -/

theorem completed_respond_setReg_setReg (s : State) (rd rc : RegIdx) (A B : Mat) (out : DataWord) :
    Completed s (((s.setReg rd A).setReg rc B).respond out) [rd, rc] out := by
  refine .of_respond (fun r hr => ?_) rfl rfl rfl rfl rfl
  obtain ⟨hrd, hrc⟩ : r ≠ rd ∧ r ≠ rc := by simpa using hr
  rw [State.reg_setReg_ne _ _ hrc, State.reg_setReg_ne _ _ hrd]

theorem Completed.codeN {s t : State} {written : List RegIdx} {out : DataWord} (h : Completed s t written out) :
    t.codeN = s.codeN := by
  simp only [State.codeN, h.codeM]

section decode
variable {s : State} {rd rc rs1 : RegIdx} (hinv : s.Inv) (hm : s.codeM ≠ 0) (hne : rd ≠ rc) (hrd : 3 ≤ rd.val)
  (hrc : 3 ≤ rc.val)
include hinv hm hne hrd hrc

/-- Under a constructed code DECODE of any n×1 vector completes: it answers the syndrome integer and writes the
corrected vector and what R extracts from it. -/
theorem exec_decode_completed {x : Mat} {idx : Nat} (hx : s.reg rs1 = .full x) (hr : x.rows = s.codeN)
    (hc : x.cols = 1) (hidx : toInt (mmul (hMat s.codeM.toNat) x) = idx) :
    ∃ t, exec (.decode rd rc rs1) s = .next t ∧ Completed s t [rd, rc] (BitVec.ofNat 256 idx) ∧
      t.reg rd = .full (mmul (rMat s.codeM.toNat) (correct s.codeN x idx)) ∧
      t.reg rc = .full (correct s.codeN x idx) := by
  obtain ⟨-, -, -, hH, hR⟩ := hinv.code hm
  have hcols : codeLen s.codeM.toNat = x.rows := (hr.trans (State.codeN_of_ne hm)).symm
  subst hidx
  exact ⟨_, execDecode_ok hne hrd hrc hm hx hH hR hr hc hcols hcols, completed_respond_setReg_setReg ..,
    reg_respond_setReg _ _ (State.reg_setReg_self ..) hne, reg_respond_setReg_self ..⟩

/-- DECODE of a codeword with position p flipped, or nothing for p = 0, answers p and gives back the codeword and its
word (`44_decoder.md` R185). -/
theorem exec_decode_codeword {c : Mat} {p : Nat} (hx : s.reg rs1 = .full (correct s.codeN c p)) (hp : p ≤ s.codeN)
    (hr : c.rows = s.codeN) (hc : c.cols = 1) (hH : mmul (hMat s.codeM.toNat) c = Mat.zero s.codeM.toNat 1) :
    ∃ t, exec (.decode rd rc rs1) s = .next t ∧ Completed s t [rd, rc] (BitVec.ofNat 256 p) ∧
      t.reg rd = .full (mmul (rMat s.codeM.toNat) c) ∧ t.reg rc = .full c := by
  have hidx : toInt (mmul (hMat s.codeM.toNat) (correct s.codeN c p)) = p := by
    rw [State.codeN_of_ne hm] at hr hp ⊢
    rw [toInt_syndrome_correct hr hc hp, hH, toInt_zero, Nat.zero_xor]
  have h := exec_decode_completed hinv hm hne hrd hrc hx ((correct_rows ..).trans hr) ((correct_cols ..).trans hc) hidx
  rwa [correct_correct] at h

/-- DECODE of a codeword answers 0 and gives back the codeword and its word (`44_decoder.md` R186). -/
theorem exec_decode_unflipped {c : Mat} (hx : s.reg rs1 = .full c) (hr : c.rows = s.codeN) (hc : c.cols = 1)
    (hH : mmul (hMat s.codeM.toNat) c = Mat.zero s.codeM.toNat 1) :
    ∃ t, exec (.decode rd rc rs1) s = .next t ∧ Completed s t [rd, rc] 0 ∧
      t.reg rd = .full (mmul (rMat s.codeM.toNat) c) ∧ t.reg rc = .full c :=
  exec_decode_codeword hinv hm hne hrd hrc (by rwa [correct_zero]) (Nat.zero_le _) hr hc hH

end decode

/-- ENCODE leaves the core ready to decode what it wrote: the code and the invariant stay, and the destination holds a
codeword from which R extracts the word. -/
theorem exec_encode_codeword {s : State} {rd rs1 : RegIdx} {w : Mat} (hinv : s.Inv) (hm : s.codeM ≠ 0)
    (hrd : 3 ≤ rd.val) (hw : s.reg rs1 = .full w) (hr : w.rows = s.codeK) (hc : w.cols = 1) :
    ∃ t c, exec (.encode rd rs1) s = .next t ∧ Completed s t [rd] 0 ∧ t.Inv ∧ t.reg rd = .full c ∧
      c.rows = s.codeN ∧ c.cols = 1 ∧ mmul (hMat s.codeM.toNat) c = Mat.zero s.codeM.toNat 1 ∧
      mmul (rMat s.codeM.toNat) c = w := by
  obtain ⟨t, hexec, hdone, hreg⟩ := exec_encode_completed hinv hm hrd hw hr hc
  exact ⟨t, _, hexec, hdone, (InstrEnds.of_exec hexec).inv hinv, hreg, (State.codeN_of_ne hm).symm, hc,
    hc ▸ hMat_mmul_codeword _ w, rMat_mmul_codeword (hr.trans (State.codeK_of_ne hm))⟩

end Sys2Proof.Machine
end

section
/-! PROOFS. The obligations of `44_decoder.md`. -/

namespace Sys2Proof.Machine

/-- Settles O51: DECODE completes with the integer of `H · x`, the vector corrected by it and R times that. -/
theorem decodeTakesItsFiveSteps : Obligations.DecodeTakesItsFiveSteps := by
  intro s rd rc rs1 x hinv hm hne hrd hrc hx hr hc
  obtain ⟨t, hexec, hdone, hw, hy⟩ := exec_decode_completed hinv hm hne hrd hrc hx hr hc rfl
  have hycols := (correct_cols s.codeN x (toInt (mmul (hMat s.codeM.toNat) x))).trans hc
  refine ⟨t, _, _, _, hexec, hdone, hw, hy, ?_, fun i hi => ?_, (correct_rows ..).trans hr, hycols,
    fun l hl => get_correct _ hr hc hl, (State.codeK_of_ne hm).symm, hycols, fun u h1 hk => ?_⟩
  · exact (toInt_syndrome_le _ x).trans_eq (State.codeN_of_ne hm).symm
  · rw [State.codeN_of_ne hm, testBit_syndrome hi hc]
  · rw [State.codeK_of_ne hm] at hk
    exact get_rMat_mmul h1 hk (Nat.one_pos.trans_eq hycols.symm)

/-- Settles O52: ENCODE leaves a codeword, INJECT flips position pos of it, and DECODE finds that flip and undoes it. -/
theorem singleErrorIsCorrected : Obligations.SingleErrorIsCorrected := by
  intro s w c e x y pos word hinv hm hc he hx hy hne hw hr hcols h1 hn
  obtain ⟨t1, code, hexec1, hdone1, hinv1, hcode, hrows, hcol, hH, hR⟩ := exec_encode_codeword hinv hm hc hw hr hcols
  rw [← hdone1.codeM] at hm hH hR
  rw [← hdone1.codeN] at hn hrows
  obtain ⟨t2, hexec2, hdone2, hflip⟩ := exec_inject_completed hm he hcode h1 hn hrows hcol
  have hinv2 := (InstrEnds.of_exec hexec2).inv hinv1
  rw [← correct_of_ne_zero (Nat.one_le_iff_ne_zero.mp h1)] at hflip
  rw [← hdone2.codeM] at hm hH hR
  rw [← hdone2.codeN] at hn hrows hflip
  obtain ⟨t3, hexec3, hdone3, hword, hcorrected⟩ := exec_decode_codeword hinv2 hm hne hx hy hflip hn hrows hcol hH
  exact ⟨t1, t2, t3, hexec1, hexec2, hexec3, hdone3.rsp, by rw [hword, hR, hw], hcorrected.trans hcode.symm,
    by rw [hdone3.stickyErr, hdone2.stickyErr, hdone1.stickyErr]⟩

/-- Settles O53: DECODE finds no flip in a codeword, and ENCODE leaves one from which R extracts the word. -/
theorem codewordDecodesUnchanged : Obligations.CodewordDecodesUnchanged := by
  refine ⟨fun s x y r c hinv hm hx hy hne hreg hr hc hH => ?_,
    fun s w c x y word hinv hm hc hx hy hne hw hr hcols => ?_⟩
  · obtain ⟨t, hexec, hdone, hword, hcode⟩ := exec_decode_unflipped hinv hm hne hx hy hreg hr hc hH
    exact ⟨t, hexec, hdone.rsp, hcode, hword, hdone.stickyErr⟩
  · obtain ⟨t1, code, hexec1, hdone1, hinv1, hcode, hrows, hcol, hH, hR⟩ := exec_encode_codeword hinv hm hc hw hr hcols
    rw [← hdone1.codeM] at hm hH hR
    rw [← hdone1.codeN] at hrows
    obtain ⟨t2, hexec2, hdone2, hword, hunchanged⟩ := exec_decode_unflipped hinv1 hm hne hx hy hcode hrows hcol hH
    exact ⟨t1, t2, hexec1, hexec2, hdone2.rsp, by rw [hword, hR, hw], hunchanged.trans hcode.symm⟩

/-- Settles O54: two flips have the syndrome of a flip at a third position, and flipping that one too gives a codeword
which differs from the one sent at position a. -/
theorem doubleErrorIsMiscorrectedSilently : Obligations.DoubleErrorIsMiscorrectedSilently := by
  intro s rd rc rs1 c a b hinv hm hrd hrc hne hr hc hH ha1 han hb1 hbn hab hx
  have hzero : a ^^^ b ≠ 0 := Nat.xor_ne_zero_iff.mpr hab
  have hleft : a ^^^ b ≠ a := mt xor_left_eq_self_iff.mp (Nat.one_le_iff_ne_zero.mp hb1)
  have hright : a ^^^ b ≠ b := mt xor_right_eq_self_iff.mp (Nat.one_le_iff_ne_zero.mp ha1)
  have hn := State.codeN_of_ne hm
  have hidx : toInt (mmul (hMat s.codeM.toNat) (madd (madd c (unitVec s.codeN a)) (unitVec s.codeN b))) = a ^^^ b := by
    rw [hn] at hr han hbn ⊢
    exact toInt_syndrome_double_flip hr hc hH ha1 han hb1 hbn
  obtain ⟨t, hexec, hdone, -, hy⟩ := exec_decode_completed hinv hm hne hrd hrc hx hr hc hidx
  refine ⟨t, _, hexec, hdone.rsp, hzero, hleft, hright, hy, correct_of_ne_zero hzero _ _, ?_, ?_, hdone.stickyErr⟩
  · rw [← hidx]
    rw [hn] at hr ⊢
    exact syndrome_corrected hr hc
  · rw [correct_of_ne_zero hzero]
    exact ne_of_flipped hr hc ha1 han hab hleft.symm

/-- Settles O55: no data position is a power of two. -/
theorem parityPositionFlipKeepsTheWord : Obligations.ParityPositionFlipKeepsTheWord :=
  fun _ i _ _ hr hc => rMat_mmul_correct_two_pow hr hc i

end Sys2Proof.Machine
end

section
/-! PROOFS. Rows without operands, which have one word each, and the words STATUS and MSHAPE answer, field by field
(`30_encoding.md` R74, R76; `45_register_access.md` R218, R221). -/

namespace Sys2Proof

/-! ### Rows whose mask keeps every bit (`30_encoding.md` R74) -/

section fullMask
variable {o : Op} {c : Command} (hmask : o.maskWord = BitVec.allOnes 32)
include hmask

theorem Op.hits_iff_eq_matchWord {w : CmdWord} : o.hits w = true ↔ w = o.matchWord := by
  rw [Op.hits, hmask, BitVec.and_allOnes, beq_iff_eq]

/-- The one word of the row builds its instruction, whatever DATA_IN is. -/
theorem decode_matchWord (hne : o ≠ .decode) (d : DataWord) :
    decode ⟨o.matchWord, d⟩ = .instr (o.build ⟨o.matchWord, d⟩) :=
  decode_of_hits ((Op.hits_iff_eq_matchWord hmask).mpr rfl) fun hsame => hne hsame.1

/-- Any other word with the row's opcode matches no row. -/
theorem decode_of_ne_matchWord (hop : fieldOp c.word = o.code) (hne : c.word ≠ o.matchWord) :
    decode c = .illegal .mustBeZero := by
  refine decode_of_mustBeZero (hop ▸ o.code_lt) fun o' ho' => ?_
  obtain rfl : o' = o := Op.code_injective ((Op.fieldOp_of_hits ho').symm.trans hop)
  exact hne ((Op.hits_iff_eq_matchWord hmask).mp ho')

theorem failed_of_ne_matchWord (s : Machine.State) (hop : fieldOp c.word = o.code) (hne : c.word ≠ o.matchWord) :
    ∃ t, Machine.runCommand c s = .next t ∧ Machine.Failed s t .illegalCommand :=
  ⟨_, Machine.runCommand_illegal (decode_of_ne_matchWord hmask hop hne) s, Machine.failed_raise s _⟩

end fullMask

end Sys2Proof

namespace Sys2Proof.Machine

/-! ### The fields of the STATUS and MSHAPE words (`45_register_access.md` R218, R221) -/

theorem State.Inv.codeN_le_nMax {s : State} (hinv : s.Inv) : s.codeN ≤ nMax s.cfg := by
  by_cases hm : s.codeM = 0
  · rw [State.codeN, if_pos hm]
    exact Nat.zero_le _
  · obtain ⟨-, hM, -⟩ := hinv.code hm
    rw [State.codeN_of_ne hm]
    exact codeLen_mono hM

theorem State.codeK_le_codeN (s : State) : s.codeK ≤ s.codeN := by
  rw [State.codeK, State.codeN]
  split
  · exact Nat.le_refl 0
  · exact wordLen_le_codeLen _

theorem toNat_zext256 {v : Nat} (hv : v < 2 ^ 256) : (zext256 v).toNat = v := Nat.mod_eq_of_lt hv

theorem toNat_shapeWord {A : Mat} (hrows : A.rows ≤ 255) (hcols : A.cols ≤ 255) :
    (shapeWord A).toNat = A.rows + 2 ^ 8 * A.cols := by
  have h0 : (zext256 A.rows).toNat = A.rows := toNat_zext256 (by omega)
  rw [shapeWord, toNat_or_zext256_shiftLeft (by omega) (by omega), h0]

/-- Under the invariant every field of the STATUS word is wide enough for its value. -/
theorem State.Inv.toNat_statusWord {s : State} (hinv : s.Inv) :
    (statusWord s).toNat = s.codeM.toNat + 2 ^ 8 * s.stickyErr.toNat + 2 ^ 16 * s.cfg.mMax.toNat + 2 ^ 32 * s.codeN
      + 2 ^ 40 * s.codeK := by
  have hm : s.codeM.toNat < 2 ^ 8 := s.codeM.isLt
  have hsticky := Bool.toNat_le s.stickyErr
  have hM := mMax_le_eight s.cfg.mMax
  have hn := hinv.codeN_le_nMax.trans (nMax_le s.cfg)
  have hk := s.codeK_le_codeN
  have h0 : (zext256 s.codeM.toNat).toNat = s.codeM.toNat := toNat_zext256 (by omega)
  have h1 := toNat_or_zext256_shiftLeft (x := zext256 s.codeM.toNat) (v := s.stickyErr.toNat) (k := 8) (by omega) (by omega)
  have h2 := toNat_or_zext256_shiftLeft (v := s.cfg.mMax.toNat) (k := 16) (h1.trans_lt (by omega)) (by omega)
  have h3 := toNat_or_zext256_shiftLeft (v := s.codeN) (k := 32) (h2.trans_lt (by omega)) (by omega)
  rw [statusWord, toNat_or_zext256_shiftLeft (h3.trans_lt (by omega)) (by omega), h3, h2, h1, h0]

end Sys2Proof.Machine
end

section
/-! PROOFS. The obligations of `45_register_access.md`. -/

namespace Sys2Proof.Machine

/-! ### Writing a register -/

/-- Settles O29: both checks hold, and the register holds `Mat.zero`. -/
theorem mdimMakesAZeroMatrix : Obligations.MdimMakesAZeroMatrix := by
  intro s rd rows cols hrd hr1 hr hc1 hc
  exact ⟨_, _, execMdim_ok hrd ⟨hr1, hr⟩ ⟨hc1, hc⟩, completed_respond_setReg .., reg_respond_setReg_self .., rfl, rfl,
    Mat.get_zero rows.toNat cols.toNat⟩

/-- Settles O30: the checks hold, and the register holds `Mat.setRow`. -/
theorem mwrowReplacesOneRow : Obligations.MwrowReplacesOneRow := by
  intro s rd row data A hrd hA hrow hdata
  exact ⟨_, _, execMwrow_ok hrd hA hrow (fitsWidth_iff.mpr hdata), completed_respond_setReg .., reg_respond_setReg_self ..,
    rfl, rfl, fun _ hi _ hj => Mat.get_setRow row.toNat data hi hj⟩

/-- Settles O31: the checks hold, and the register holds `Mat.setCol`. -/
theorem mwcolReplacesOneColumn : Obligations.MwcolReplacesOneColumn := by
  intro s rd col data A hrd hA hcol hdata
  exact ⟨_, _, execMwcol_ok hrd hA hcol (fitsWidth_iff.mpr hdata), completed_respond_setReg .., reg_respond_setReg_self ..,
    rfl, rfl, fun _ hi _ hj => Mat.get_setCol col.toNat data hi hj⟩

/-! ### Reading a register -/

/-- Settles O32: DATA_OUT is the word of the row, and the matrix has no element at or above its columns. -/
theorem mrrowReadsOneRow : Obligations.MrrowReadsOneRow := by
  intro s rs1 row A hA hrow
  refine ⟨_, _, execMrrow_ok hA hrow, completed_respond_self .., fun j hj => ?_⟩
  rw [getLsbD_rowWord A row.toNat hj]
  rcases Nat.lt_or_ge j A.cols with hcol | hcol
  · simp [hcol]
  · simp [A.get_of_cols_le row.toNat hcol]

/-- Settles O33: DATA_OUT is the word of the column, and the matrix has no element at or above its rows. -/
theorem mrcolReadsOneColumn : Obligations.MrcolReadsOneColumn := by
  intro s rs1 col A hA hcol
  refine ⟨_, _, execMrcol_ok hA hcol, completed_respond_self .., fun i hi => ?_⟩
  rw [getLsbD_colWord A col.toNat hi]
  rcases Nat.lt_or_ge i A.rows with hrow | hrow
  · simp [hrow]
  · simp [A.get_of_rows_le col.toNat hrow]

/-- Settles O34: under the invariant both dimensions fit their bytes. -/
theorem mshapeReadsTheSize : Obligations.MshapeReadsTheSize := by
  intro s rs1 A hinv hA
  obtain ⟨-, hrows, -, hcols⟩ := hinv.fits hA
  have hmax := nMax_le s.cfg
  exact ⟨_, _, execMshape_ok hA, completed_respond_self .., toNat_shapeWord (hrows.trans hmax) (hcols.trans hmax)⟩

/-! ### Commands of one word -/

/-- Settles O35: the fields do not overlap, and the mask of STATUS keeps every bit of a word. -/
theorem statusReadsTheControlState : Obligations.StatusReadsTheControlState :=
  ⟨fun s hinv => ⟨_, _, execStatus_eq s, completed_respond_self .., hinv.toNat_statusWord⟩,
    decode_matchWord (o := .status) rfl nofun, fun _ s => failed_of_ne_matchWord (o := .status) rfl s⟩

/-- Settles O28: NOP has no check and writes nothing, and its mask keeps every bit of a word. -/
theorem nopDoesNothing : Obligations.NopDoesNothing :=
  ⟨fun s => ⟨_, execNop_eq s, completed_respond_self s 0⟩,
    decode_matchWord (o := .nop) rfl nofun, fun _ s => failed_of_ne_matchWord (o := .nop) rfl s⟩

end Sys2Proof.Machine
end

section
/-! PROOFS. The checks of a command: when each fails, which of them decides the result, and which errors a command can
give (`60_exceptions.md` R261 to R265). -/

namespace Sys2Proof.Machine

/-! ### When a check fails -/

/-- A check or a read that fails with `e` when `p` holds, and passes otherwise. -/
inductive FailsWhen (e : CmdError) (p : Prop) {α : Type} : Except CmdError α → Prop
  | fails (h : p) : FailsWhen e p (.error e)
  | passes (h : ¬ p) (a : α) : FailsWhen e p (.ok a)

theorem checkWritable_failsWhen (rd : RegIdx) : FailsWhen .readOnlyRegister (rd.val ≤ 2) (checkWritable rd) := by
  obtain ⟨hrd, h⟩ | ⟨hrd, h⟩ := checkWritable_cases rd
  · exact h ▸ .passes (Nat.not_le.mpr hrd) ()
  · exact h ▸ .fails hrd

theorem checkConstructed_failsWhen (s : State) : FailsWhen .notConstructed (s.codeM = 0) (checkConstructed s) := by
  obtain ⟨hm, h⟩ | ⟨hm, h⟩ := checkConstructed_cases s
  · exact h ▸ .passes hm ()
  · exact h ▸ .fails hm

theorem operand_failsWhen (s : State) (r : RegIdx) : FailsWhen .unwritten (s.reg r = .empty) (operand s r) := by
  obtain ⟨A, hA, h⟩ | ⟨hr, h⟩ := operand_cases s r
  · exact h ▸ .passes (by simp [hA]) A
  · exact h ▸ .fails hr

theorem checkRange_failsWhen (b : Bool) : FailsWhen .invalidParameter (b = false) (checkRange b) := by
  cases b with
  | false => exact .fails rfl
  | true => exact .passes nofun ()

theorem checkSize_failsWhen (b : Bool) : FailsWhen .dimensionMismatch (b = false) (checkSize b) := by
  cases b with
  | false => exact .fails rfl
  | true => exact .passes nofun ()

theorem sum_failsWhen (A B : Mat) :
    FailsWhen .dimensionMismatch (A.rows ≠ B.rows ∨ A.cols ≠ B.cols) (sum A B) := by
  obtain ⟨hs, h⟩ | ⟨hs, h⟩ := sum_cases A B
  · exact h ▸ .passes (by simp [hs]) _
  · exact h ▸ .fails hs

theorem product_failsWhen (A B : Mat) : FailsWhen .dimensionMismatch (A.cols ≠ B.rows) (product A B) := by
  obtain ⟨hp, h⟩ | ⟨hp, h⟩ := product_cases A B
  · exact h ▸ .passes (not_not.mpr hp) _
  · exact h ▸ .fails hp

theorem reg_of_operand {s : State} {r : RegIdx} {A : Mat} (h : operand s r = .ok A) : s.reg r = .full A := by
  obtain ⟨B, hB, h'⟩ | ⟨-, h'⟩ := operand_cases s r
  · rw [hB, Except.ok.inj (h'.symm.trans h)]
  · simp [h'] at h

/-! ### Which errors a computation can end with -/

/-- Every error of the computation is in the list. -/
def ErrorsIn {α : Type} (l : List CmdError) (x : Except CmdError α) : Prop := ∀ e, x = .error e → e ∈ l

theorem ErrorsIn.ok {α : Type} {l : List CmdError} {a : α} : ErrorsIn l (.ok a : Except CmdError α) := nofun

/-- A check may come first when its error is in the list. -/
theorem ErrorsIn.check {α β : Type} {l : List CmdError} {e : CmdError} {p : Prop} {x : Except CmdError α}
    {f : α → Except CmdError β} (hx : FailsWhen e p x) (h : ∀ a, ErrorsIn l (f a))
    (he : e ∈ l := by simp [Instr.mayGive]) : ErrorsIn l (x >>= f) := by
  cases hx with
  | fails => exact fun e' he' => Except.error.inj he' ▸ he
  | passes _ a => exact h a

/-- In every state a command is performed by checks whose errors stand in its row of the table of results
(`60_exceptions.md` R265). -/
theorem exec_errorsIn (i : Instr) (s : State) : ∃ x, exec i s = perform s x ∧ ErrorsIn i.mayGive x := by
  cases i with
  | nop => exact ⟨.ok (s, 0), rfl, .ok⟩
  | status => exact ⟨.ok (s, statusWord s), rfl, .ok⟩
  | construct m => exact ⟨_, rfl, .check (checkRange_failsWhen _) fun _ => .ok⟩
  | encode rd rs1 =>
    exact ⟨_, rfl, .check (checkWritable_failsWhen rd) fun _ =>
      .check (checkConstructed_failsWhen s) fun _ =>
      .check (operand_failsWhen s rs1) fun w =>
      .check (operand_failsWhen s 0) fun G =>
      .check (checkSize_failsWhen _) fun _ =>
      .check (product_failsWhen G w) fun _ => .ok⟩
  | inject rd rs1 pos =>
    exact ⟨_, rfl, .check (checkWritable_failsWhen rd) fun _ =>
      .check (checkConstructed_failsWhen s) fun _ =>
      .check (operand_failsWhen s rs1) fun c =>
      .check (checkRange_failsWhen _) fun _ =>
      .check (checkSize_failsWhen _) fun _ => .ok⟩
  | decode rd rc rs1 =>
    refine ⟨_, rfl, ?_⟩
    split
    · rintro e ⟨⟩
      simp [Instr.mayGive]
    · exact .check (checkWritable_failsWhen rd) fun _ =>
        .check (checkWritable_failsWhen rc) fun _ =>
        .check (checkConstructed_failsWhen s) fun _ =>
        .check (operand_failsWhen s rs1) fun x =>
        .check (operand_failsWhen s 1) fun H =>
        .check (operand_failsWhen s 2) fun R =>
        .check (checkSize_failsWhen _) fun _ =>
        .check (product_failsWhen H x) fun _ =>
        .check (product_failsWhen R _) fun _ => .ok
  | madd rd rs1 rs2 =>
    exact ⟨_, rfl, .check (checkWritable_failsWhen rd) fun _ =>
      .check (operand_failsWhen s rs1) fun A =>
      .check (operand_failsWhen s rs2) fun B =>
      .check (sum_failsWhen A B) fun _ => .ok⟩
  | mmul rd rs1 rs2 =>
    exact ⟨_, rfl, .check (checkWritable_failsWhen rd) fun _ =>
      .check (operand_failsWhen s rs1) fun A =>
      .check (operand_failsWhen s rs2) fun B =>
      .check (product_failsWhen A B) fun _ => .ok⟩
  | mdim rd rows cols =>
    exact ⟨_, rfl, .check (checkWritable_failsWhen rd) fun _ =>
      .check (checkRange_failsWhen _) fun _ => .ok⟩
  | mwrow rd row data =>
    exact ⟨_, rfl, .check (checkWritable_failsWhen rd) fun _ =>
      .check (operand_failsWhen s rd) fun A =>
      .check (checkRange_failsWhen _) fun _ =>
      .check (checkSize_failsWhen _) fun _ => .ok⟩
  | mrrow rs1 row =>
    exact ⟨_, rfl, .check (operand_failsWhen s rs1) fun A =>
      .check (checkRange_failsWhen _) fun _ => .ok⟩
  | mwcol rd col data =>
    exact ⟨_, rfl, .check (checkWritable_failsWhen rd) fun _ =>
      .check (operand_failsWhen s rd) fun A =>
      .check (checkRange_failsWhen _) fun _ =>
      .check (checkSize_failsWhen _) fun _ => .ok⟩
  | mrcol rs1 col =>
    exact ⟨_, rfl, .check (operand_failsWhen s rs1) fun A =>
      .check (checkRange_failsWhen _) fun _ => .ok⟩
  | mshape rs1 => exact ⟨_, rfl, .check (operand_failsWhen s rs1) fun A => .ok⟩

/-! ### The first failing check decides -/

/-- The computation ends with the first error of the list that is violated, and passes when none is. -/
inductive FirstOf (violated : CmdError → Prop) {α : Type} : List CmdError → Except CmdError α → Prop
  | ok (a : α) : FirstOf violated [] (.ok a)
  | fail {e : CmdError} (l : List CmdError) (h : violated e) : FirstOf violated (e :: l) (.error e)
  | pass {e : CmdError} {l : List CmdError} {x : Except CmdError α} (h : ¬ violated e) (hx : FirstOf violated l x) :
    FirstOf violated (e :: l) x

namespace FirstOf
variable {violated : CmdError → Prop} {α β : Type} {l : List CmdError} {e : CmdError} {p : Prop} {x : Except CmdError α}
  {f : α → Except CmdError β}

/-- The one check for its error: the rest decides among the errors after it. -/
theorem check (hx : FailsWhen e p x) (hp : violated e ↔ p) (h : ∀ a, x = .ok a → ¬ p → FirstOf violated l (f a)) :
    FirstOf violated (e :: l) (x >>= f) := by
  cases hx with
  | fails hf => exact .fail l (hp.mpr hf)
  | passes hf a => exact .pass (hp.not.mpr hf) (h a rfl hf)

/-- One of several checks for its error: the rest still decides this error too. -/
theorem checkAmong (hx : FailsWhen e p x) (hp : p → violated e)
    (h : ∀ a, x = .ok a → ¬ p → FirstOf violated (e :: l) (f a)) : FirstOf violated (e :: l) (x >>= f) := by
  cases hx with
  | fails hf => exact .fail l (hp hf)
  | passes hf a => exact h a rfl hf

theorem ok_iff (hx : FirstOf violated l x) : (∃ a, x = .ok a) ↔ ∀ e ∈ l, ¬ violated e := by
  induction hx with
  | ok a => simp
  | fail l h => simp [h]
  | pass h _ ih => simp [h, ih]

/-- In a list that keeps the check order, being first in the list is being first in that order. -/
theorem error_iff (hx : FirstOf violated l x) (hsorted : l.Pairwise fun a b => a.rank < b.rank) :
    x = .error e ↔ e ∈ l ∧ violated e ∧ ∀ e' ∈ l, e'.rank < e.rank → ¬ violated e' := by
  induction hx with
  | ok a => simp
  | @fail e₀ l h =>
    have hlater := (List.pairwise_cons.mp hsorted).1
    constructor
    · rintro ⟨⟩
      refine ⟨List.mem_cons_self, h, fun e' hmem hlt => ?_⟩
      rcases List.mem_cons.mp hmem with rfl | hmem
      · exact absurd hlt (lt_irrefl _)
      · exact absurd hlt (hlater e' hmem).asymm
    · rintro ⟨hmem, -, hfirst⟩
      rcases List.mem_cons.mp hmem with rfl | hmem
      · rfl
      · exact absurd h (hfirst e₀ List.mem_cons_self (hlater e hmem))
  | @pass e₀ l x h _ ih =>
    rw [ih (List.pairwise_cons.mp hsorted).2]
    have hne (hv : violated e) : e ≠ e₀ := fun he => h (he ▸ hv)
    rw [List.mem_cons, List.forall_mem_cons]
    exact ⟨fun ⟨hmem, hv, hfirst⟩ => ⟨.inr hmem, hv, fun _ => h, hfirst⟩,
      fun ⟨hmem, hv, _, hfirst⟩ => ⟨hmem.resolve_left (hne hv), hv, hfirst⟩⟩

end FirstOf

end Sys2Proof.Machine

namespace Sys2Proof
open Machine

/-! ### What a command's checks are (`60_exceptions.md` R261, R262) -/

section violates
variable {i : Instr} {s : Machine.State} {r q : RegIdx}

theorem Instr.violates_readOnly_one (h : i.dests = [r]) : i.violates s .readOnlyRegister ↔ r.val ≤ 2 := by
  simp [Instr.violates, h]

theorem Instr.violates_readOnly_two (h : i.dests = [r, q]) :
    i.violates s .readOnlyRegister ↔ r.val ≤ 2 ∨ q.val ≤ 2 := by
  simp [Instr.violates, h]

theorem Instr.violates_notConstructed (h : i.needsCode = true) : i.violates s .notConstructed ↔ s.codeM = 0 := by
  simp [Instr.violates, h]

theorem Instr.violates_unwritten_one (h : i.sources = [r]) : i.violates s .unwritten ↔ s.reg r = .empty := by
  simp [Instr.violates, h]

theorem Instr.violates_unwritten_two (h : i.sources = [r, q]) :
    i.violates s .unwritten ↔ s.reg r = .empty ∨ s.reg q = .empty := by
  simp [Instr.violates, h]

/-- The checks of a command are those of its row of the table of results. -/
theorem Instr.mem_mayGive_of_violates {e : CmdError} (h : i.violates s e) : e ∈ i.mayGive := by
  revert h
  cases e with
  | illegalCommand => cases i <;> simp [Instr.mayGive]
  | readOnlyRegister => cases i <;> simp [Instr.mayGive, Instr.violates, Instr.dests]
  | notConstructed => cases i <;> simp [Instr.mayGive, Instr.violates, Instr.needsCode]
  | unwritten => cases i <;> simp [Instr.mayGive, Instr.violates, Instr.sources]
  | invalidParameter => cases i <;> simp [Instr.mayGive, Instr.violates, Instr.outOfRange]
  | dimensionMismatch => cases i <;> simp [Instr.mayGive, Instr.violates, Instr.wrongSize]

/-- Every row of the table of results lists its errors in the check order. -/
theorem Instr.mayGive_sorted (i : Instr) : i.mayGive.Pairwise fun a b => a.rank < b.rank := by
  cases i <;> simp [Instr.mayGive, CmdError.rank]

end violates

end Sys2Proof

namespace Sys2Proof.Machine

@[simp] theorem MatReg.rows_full (A : Mat) : (MatReg.full A).rows = A.rows := rfl
@[simp] theorem MatReg.cols_full (A : Mat) : (MatReg.full A).cols = A.cols := rfl

/-- The size check of ENCODE, INJECT and DECODE fails when the register holds no vector of the given length. -/
theorem vectorSize_eq_false_iff {s : State} {r : RegIdx} {x : Mat} {n : Nat} (hx : s.reg r = .full x) :
    ((s.reg r).rows ≠ n ∨ (s.reg r).cols ≠ 1) ↔ (x.rows == n && x.cols == 1) = false := by
  simp [hx, imp_iff_not_or]

theorem fitsWidth_eq_false_iff {data : DataWord} {width : Nat} :
    (∃ j, width ≤ j ∧ data.getLsbD j = true) ↔ fitsWidth data width = false := by
  rw [← Bool.not_eq_true, fitsWidth_iff]
  simp

section firstOf
variable {s : State}

theorem exec_encode_firstOf (hinv : s.Inv) (rd rs1 : RegIdx) :
    ∃ x, exec (.encode rd rs1) s = perform s x ∧
      FirstOf ((Instr.encode rd rs1).violates s) (Instr.encode rd rs1).mayGive x := by
  refine ⟨_, rfl, .pass nofun <| .check (checkWritable_failsWhen rd) (Instr.violates_readOnly_one rfl) fun _ _ _ =>
    .check (checkConstructed_failsWhen s) (Instr.violates_notConstructed rfl) fun _ _ hm =>
    .check (operand_failsWhen s rs1) (Instr.violates_unwritten_one rfl) fun w hw _ => ?_⟩
  obtain ⟨-, -, hG, -⟩ := hinv.code hm
  rw [operand_full hG, bind_ok]
  refine .check (checkSize_failsWhen _) (vectorSize_eq_false_iff (reg_of_operand hw)) fun _ _ hsize => ?_
  obtain ⟨hrows, -⟩ : w.rows = s.codeK ∧ w.cols = 1 := by simpa using hsize
  rw [product_ok (A := gMat s.codeM.toNat) (hrows.trans (State.codeK_of_ne hm)).symm, bind_ok]
  exact .ok _

theorem exec_decode_firstOf (hinv : s.Inv) (rd rc rs1 : RegIdx) :
    ∃ x, exec (.decode rd rc rs1) s = perform s x ∧
      FirstOf ((Instr.decode rd rc rs1).violates s) (Instr.decode rd rc rs1).mayGive x := by
  refine ⟨_, rfl, ?_⟩
  split
  · next heq => exact .fail _ (by simp [Instr.violates, Instr.wellFormed, heq])
  · next hne =>
    refine .pass (by simpa [Instr.violates, Instr.wellFormed] using hne) <|
      .checkAmong (checkWritable_failsWhen rd) (fun h => (Instr.violates_readOnly_two rfl).mpr (.inl h)) fun _ _ hrd =>
      .check (checkWritable_failsWhen rc) ((Instr.violates_readOnly_two rfl).trans (or_iff_right hrd)) fun _ _ _ =>
      .check (checkConstructed_failsWhen s) (Instr.violates_notConstructed rfl) fun _ _ hm =>
      .check (operand_failsWhen s rs1) (Instr.violates_unwritten_one rfl) fun x hx _ => ?_
    obtain ⟨-, -, -, hH, hR⟩ := hinv.code hm
    rw [operand_full hH, bind_ok, operand_full hR, bind_ok]
    refine .check (checkSize_failsWhen _) (vectorSize_eq_false_iff (reg_of_operand hx)) fun _ _ hsize => ?_
    obtain ⟨hrows, -⟩ : x.rows = s.codeN ∧ x.cols = 1 := by simpa using hsize
    have hn : codeLen s.codeM.toNat = x.rows := (hrows.trans (State.codeN_of_ne hm)).symm
    rw [product_ok (A := hMat s.codeM.toNat) hn, bind_ok]
    extract_lets idx y
    rw [product_ok (A := rMat s.codeM.toNat) (hn.trans (correct_rows ..).symm), bind_ok]
    exact .ok _

/-- Under the invariant every command is performed by its checks in the check order (`60_exceptions.md` R264): a product
with a code register has no check of its own to fail. -/
theorem exec_firstOf (hinv : s.Inv) (i : Instr) :
    ∃ x, exec i s = perform s x ∧ FirstOf (i.violates s) i.mayGive x := by
  cases i with
  | nop => exact ⟨.ok (s, 0), rfl, .pass nofun (.ok _)⟩
  | status => exact ⟨.ok (s, statusWord s), rfl, .pass nofun (.ok _)⟩
  | construct m =>
    refine ⟨_, rfl, .pass nofun <| .check (checkRange_failsWhen _) ?_ fun _ _ _ => .ok _⟩
    simp only [Instr.violates, Instr.outOfRange, Bool.and_eq_false_iff, decide_eq_false_iff_not]
    omega
  | encode rd rs1 => exact exec_encode_firstOf hinv rd rs1
  | inject rd rs1 pos =>
    refine ⟨_, rfl, .pass nofun <| .check (checkWritable_failsWhen rd) (Instr.violates_readOnly_one rfl) fun _ _ _ =>
      .check (checkConstructed_failsWhen s) (Instr.violates_notConstructed rfl) fun _ _ _ =>
      .check (operand_failsWhen s rs1) (Instr.violates_unwritten_one rfl) fun c hc _ =>
      .check (checkRange_failsWhen _) ?_ fun _ _ _ =>
      .check (checkSize_failsWhen _) (vectorSize_eq_false_iff (reg_of_operand hc)) fun _ _ _ => .ok _⟩
    simp only [Instr.violates, Instr.outOfRange, Bool.and_eq_false_iff, decide_eq_false_iff_not]
    omega
  | decode rd rc rs1 => exact exec_decode_firstOf hinv rd rc rs1
  | madd rd rs1 rs2 =>
    refine ⟨_, rfl, .pass nofun <| .check (checkWritable_failsWhen rd) (Instr.violates_readOnly_one rfl) fun _ _ _ =>
      .checkAmong (operand_failsWhen s rs1) (fun h => (Instr.violates_unwritten_two rfl).mpr (.inl h)) fun A hA hA' =>
      .check (operand_failsWhen s rs2) ((Instr.violates_unwritten_two rfl).trans (or_iff_right hA')) fun B hB _ =>
      .check (sum_failsWhen A B) ?_ fun _ _ _ => .ok _⟩
    simp [Instr.violates, Instr.wrongSize, reg_of_operand hA, reg_of_operand hB]
  | mmul rd rs1 rs2 =>
    refine ⟨_, rfl, .pass nofun <| .check (checkWritable_failsWhen rd) (Instr.violates_readOnly_one rfl) fun _ _ _ =>
      .checkAmong (operand_failsWhen s rs1) (fun h => (Instr.violates_unwritten_two rfl).mpr (.inl h)) fun A hA hA' =>
      .check (operand_failsWhen s rs2) ((Instr.violates_unwritten_two rfl).trans (or_iff_right hA')) fun B hB _ =>
      .check (product_failsWhen A B) ?_ fun _ _ _ => .ok _⟩
    simp [Instr.violates, Instr.wrongSize, reg_of_operand hA, reg_of_operand hB]
  | mdim rd rows cols =>
    refine ⟨_, rfl, .pass nofun <| .check (checkWritable_failsWhen rd) (Instr.violates_readOnly_one rfl) fun _ _ _ =>
      .check (checkRange_failsWhen _) ?_ fun _ _ _ => .ok _⟩
    simp only [Instr.violates, Instr.outOfRange, Bool.and_eq_false_iff, decide_eq_false_iff_not]
    omega
  | mwrow rd row data =>
    refine ⟨_, rfl, .pass nofun <| .check (checkWritable_failsWhen rd) (Instr.violates_readOnly_one rfl) fun _ _ _ =>
      .check (operand_failsWhen s rd) (Instr.violates_unwritten_one rfl) fun A hA _ =>
      .check (checkRange_failsWhen _) ?_ fun _ _ _ => .check (checkSize_failsWhen _) ?_ fun _ _ _ => .ok _⟩
    · simp [Instr.violates, Instr.outOfRange, reg_of_operand hA]
    · simp only [Instr.violates, Instr.wrongSize, reg_of_operand hA, MatReg.cols_full, fitsWidth_eq_false_iff]
  | mrrow rs1 row =>
    refine ⟨_, rfl, .pass nofun <| .check (operand_failsWhen s rs1) (Instr.violates_unwritten_one rfl) fun A hA _ =>
      .check (checkRange_failsWhen _) ?_ fun _ _ _ => .ok _⟩
    simp [Instr.violates, Instr.outOfRange, reg_of_operand hA]
  | mwcol rd col data =>
    refine ⟨_, rfl, .pass nofun <| .check (checkWritable_failsWhen rd) (Instr.violates_readOnly_one rfl) fun _ _ _ =>
      .check (operand_failsWhen s rd) (Instr.violates_unwritten_one rfl) fun A hA _ =>
      .check (checkRange_failsWhen _) ?_ fun _ _ _ => .check (checkSize_failsWhen _) ?_ fun _ _ _ => .ok _⟩
    · simp [Instr.violates, Instr.outOfRange, reg_of_operand hA]
    · simp only [Instr.violates, Instr.wrongSize, reg_of_operand hA, MatReg.rows_full, fitsWidth_eq_false_iff]
  | mrcol rs1 col =>
    refine ⟨_, rfl, .pass nofun <| .check (operand_failsWhen s rs1) (Instr.violates_unwritten_one rfl) fun A hA _ =>
      .check (checkRange_failsWhen _) ?_ fun _ _ _ => .ok _⟩
    simp [Instr.violates, Instr.outOfRange, reg_of_operand hA]
  | mshape rs1 =>
    exact ⟨_, rfl, .pass nofun <| .check (operand_failsWhen s rs1) (Instr.violates_unwritten_one rfl) fun A _ _ => .ok _⟩

end firstOf

/-! ### What the response says about the computation -/

section perform
variable {s : State} {x : Except CmdError (State × DataWord)}

theorem perform_failed_iff {e : CmdError} : (∃ t, perform s x = .next t ∧ Failed s t e) ↔ x = .error e := by
  constructor
  · rintro ⟨t, h, hfailed⟩
    exact eq_error_of_perform (hfailed.eq_raise ▸ h)
  · rintro rfl
    exact ⟨_, rfl, failed_raise s e⟩

theorem perform_responds_ok_iff :
    (∃ t out, perform s x = .next t ∧ t.rsp = some ⟨.ok, out⟩) ↔ ∃ a, x = .ok a := by
  cases x with
  | ok a => exact iff_of_true ⟨_, _, rfl, rfl⟩ ⟨a, rfl⟩
  | error e =>
    refine iff_of_false ?_ nofun
    rintro ⟨t, out, ⟨⟩, hrsp⟩
    simp at hrsp

theorem eq_error_of_rsp {t : State} {e : CmdError} {v : DataWord} (h : perform s x = .next t)
    (hrsp : t.rsp = some ⟨.error e, v⟩) : x = .error e := by
  obtain ⟨u, w, -, hx⟩ | ⟨e', rfl, hx⟩ := perform_cases s x
  · cases hx.symm.trans h
    simp at hrsp
  · cases hx.symm.trans h
    simp only [State.raise_rsp, Option.some.injEq, Response.mk.injEq, Result.error.injEq] at hrsp
    rw [hrsp.1]

end perform

/-- A command whose result is an error has failed with it: every other way to end answers OK. -/
theorem InstrEnds.failed {i : Instr} {s t : State} {e : CmdError} {v : DataWord} (h : InstrEnds i s t)
    (hrsp : t.rsp = some ⟨.error e, v⟩) : Failed s t e := by
  cases h with
  | raised e' =>
    obtain rfl : e' = e := by simpa using congrArg (Option.map Response.result) hrsp
    exact failed_raise s e'
  | constructed m => simp at hrsp
  | completed h => simp [h.rsp] at hrsp

end Sys2Proof.Machine
end

section
/-! PROOFS. The obligations of `60_exceptions.md`. -/

namespace Sys2Proof.Machine

/-- Settles O26: the checks of a command run in the check order, so the first that is violated decides the result. -/
theorem resultIsTheFirstFailingCheck : Obligations.ResultIsTheFirstFailingCheck := by
  refine ⟨fun c why s h => ⟨_, runCommand_illegal h s, failed_raise s _⟩, fun i s hinv => ?_⟩
  obtain ⟨x, hx, hfirst⟩ := exec_firstOf hinv i
  rw [hx]
  have hmem {e : CmdError} : i.violates s e → e ∈ i.mayGive := Instr.mem_mayGive_of_violates
  constructor
  · intro e
    rw [perform_failed_iff, hfirst.error_iff i.mayGive_sorted]
    exact ⟨fun ⟨_, hv, hlower⟩ => ⟨hv, fun e' hlt hv' => hlower e' (hmem hv') hlt hv'⟩,
      fun ⟨hv, hlower⟩ => ⟨hmem hv, hv, fun e' _ hlt => hlower e' hlt⟩⟩
  · rw [perform_responds_ok_iff, hfirst.ok_iff]
    exact ⟨fun h e hv => h e (hmem hv) hv, fun h e _ => h e⟩

/-- Settles O22: of the ways a command can end, only a raised error answers an error. -/
theorem failingCommandWritesNothing : Obligations.FailingCommandWritesNothing := by
  intro c s t e v hrun hrsp
  obtain ⟨i, hends⟩ := InstrEnds.of_runCommand hrun
  exact ⟨hends.failed hrsp, rfl⟩

/-- Settles O27: the errors of each check of a command stand in its row. -/
theorem errorsStayInTheirTable : Obligations.ErrorsStayInTheirTable := by
  intro c i s t e v hdec hrun hrsp
  obtain ⟨x, hx, herrors⟩ := exec_errorsIn i s
  rw [runCommand_instr hdec, hx] at hrun
  exact herrors e (eq_error_of_rsp hrun hrsp)

/-- Settles O10: an empty inbox is the idle case of the step. -/
theorem idleCoreHoldsItsState : Obligations.IdleCoreHoldsItsState :=
  fun _ h => step_nil h

end Sys2Proof.Machine
end

section
/-! PROOFS. What the port does with each action of the host, and what a command never removes
(`70_reset_and_hazards.md` R290 to R296). -/

namespace Sys2Proof.Machine

/-! ### The port, free or busy (R291, R296) -/

@[simp] theorem State.takeResponse_cmdReady (s : State) : s.takeResponse.cmdReady = true := rfl

@[simp] theorem State.applyReset_cmdReady (s : State) : s.applyReset.cmdReady = true := rfl

theorem act_command_busy {s : State} {r : Response} (c : Command) (h : s.rsp = some r) :
    act (.command c) s = .refused .portBusy := by
  simp [act, State.cmdReady, h]

theorem act_commandCutByReset_busy {s : State} {r : Response} (c : Command) (h : s.rsp = some r) :
    act (.commandCutByReset c) s = .refused .portBusy := by
  simp [act, State.cmdReady, h]

theorem act_commandCutByReset {s : State} (c : Command) (h : s.rsp = none) :
    act (.commandCutByReset c) s = .next s.applyReset := by
  simp [act, State.cmdReady, h]

/-! ### What no command removes (R292) -/

namespace InstrEnds
variable {i : Instr} {s t : State}

/-- CONSTRUCT loads an m of at least 2, and no other command writes CODE_M. -/
theorem codeM_ne_zero (h : InstrEnds i s t) (hs : s.codeM ≠ 0) : t.codeM ≠ 0 := by
  cases h with
  | raised e => exact hs
  | constructed m _ h2 hM =>
    intro h0
    have hm : m.toNat = 0 := (State.loadCode_codeM_toNat hM).symm.trans (congrArg BitVec.toNat h0)
    omega
  | completed h => rwa [h.codeM]

/-- A command that writes a register writes a matrix there. -/
theorem reg_ne_empty (h : InstrEnds i s t) {r : RegIdx} (hs : s.reg r ≠ .empty) : t.reg r ≠ .empty := by
  cases h with
  | raised e => exact hs
  | constructed m =>
    rw [State.respond_reg, State.loadCode_reg]
    split_ifs
    · exact MatReg.noConfusion
    · exact MatReg.noConfusion
    · exact MatReg.noConfusion
    · exact hs
  | completed h _ hfull =>
    by_cases hr : r ∈ i.dests
    · obtain ⟨A, hA, -⟩ := hfull r hr
      simp [hA]
    · rwa [h.reg r hr]

end InstrEnds

end Sys2Proof.Machine
end

section
/-! PROOFS. The obligations of `70_reset_and_hazards.md`. -/

namespace Sys2Proof.Machine

/-- Settles O25: being idle and taking a response write none of the core's state, and a command only sets STICKY_ERR, loads
a code or fills registers. -/
theorem onlyResetRemovesTheCode : Obligations.OnlyResetRemovesTheCode := by
  intro s t h hreset hcut
  obtain ⟨-, rfl⟩ | ⟨a, rest, hin, hact⟩ := step_cases h
  · exact ⟨id, id, fun _ => id⟩
  · obtain ⟨c, -, hrun⟩ | ⟨rfl | ⟨c, rfl⟩, -⟩ | ⟨-, rfl⟩ := act_cases hact
    · obtain ⟨i, hends⟩ := InstrEnds.of_runCommand hrun
      exact ⟨hends.stickyErr_of_set, hends.codeM_ne_zero, fun _ => hends.reg_ne_empty⟩
    · exact absurd hin (hreset rest)
    · exact absurd hin (hcut c rest)
    · exact ⟨id, id, fun _ => id⟩

/-- Settles O11: the port is busy for a command of either kind. -/
theorem busyCoreTakesNoCommand : Obligations.BusyCoreTakesNoCommand := by
  rintro s c rest r hrsp (hin | hin)
  · exact (step_cons hin).trans (act_command_busy c hrsp)
  · exact (step_cons hin).trans (act_commandCutByReset_busy c hrsp)

/-- Settles O12: the step is `State.takeResponse`, which appends the one response that waits. -/
theorem takingAResponseFreesThePort : Obligations.TakingAResponseFreesThePort := by
  intro s rest r hrsp hin
  have htaken : ({ s with inbox := rest } : State).takeResponse.taken = s.taken ++ [r] := by simp [hrsp]
  exact ⟨_, step_cons hin, htaken, State.takeResponse_rsp _, State.takeResponse_cmdReady _, rfl, fun _ => rfl, rfl, rfl,
    rfl⟩

/-- Settles O13: the step is `State.applyReset`, whatever the state. -/
theorem resetRestoresTheResetState : Obligations.ResetRestoresTheResetState :=
  fun _ _ hin => ⟨_, step_cons hin, State.applyReset_reg _, State.applyReset_codeM _, State.applyReset_stickyErr _,
    State.applyReset_rsp _, State.applyReset_cmdReady _⟩

/-- Settles O14: a free port answers a command cut by reset with `State.applyReset`, and the command is not performed. -/
theorem resetAbandonsACommand : Obligations.ResetAbandonsACommand := by
  intro s c rest hrsp hin
  have hstep : step s = .next (State.applyReset { s with inbox := rest }) :=
    (step_cons hin).trans (act_commandCutByReset c hrsp)
  exact ⟨_, hstep, State.applyReset_reg _, State.applyReset_codeM _, State.applyReset_stickyErr _,
    State.applyReset_rsp _, State.applyReset_taken _⟩

end Sys2Proof.Machine
end
